-- ==== Sys2Proof/Word.lean ====
section
/-! DEFINITION. The word types of the machine: their widths are the constants of 00_scope.md R8. Addition and subtraction of
`BitVec 32` are the spec's `+w` and `-w`, taken modulo `2^32` (R10, D1). -/

namespace Sys2Proof

/-- A value: register, memory word, immediate, ALU result, port value. `XLEN = 32`, two's complement (R8, R10, D1). -/
abbrev Word := BitVec 32

/-- A binary instruction word, `IW = 64` bits, a number and not a byte sequence (R66, R93, D11). -/
abbrev InstrWord := BitVec 64

/-- A register index `0..15`: the 4-bit field makes every value valid (R20, R96, R108). -/
abbrev RegIndex := BitVec 4

/-- A label identifier, `LABEL_BITS = 16` (R8, R98, D12). -/
abbrev Label := BitVec 16

/-- An instruction index, the type of the program counter and of the Label Table's answers: `PC_BITS = 32`, unsigned
(R24, R45, D22). -/
abbrev InstrIndex := BitVec 32

/-- `WORD_BYTES`, the word size of the alignment rule (R8, D2). -/
abbrev wordBytes : Nat := 4

end Sys2Proof
end

