-- ==== Sys2Proof/Syntax.lean ====
section
/-! DEFINITION. The instruction record of 30_encoding.md R90: a closed set of nine variants (R91). -/

namespace Sys2Proof

/-- The fields every instruction carries, whether or not its opcode uses them (R90, R99): the ID step reads all three
registers and the forwarding unit compares all three fields, for every opcode (R32, R152). The text field is not here: it
is no part of the encoding (R93) and stands in `Config.text`. -/
structure Fields where
  /-- Destination register index; the BASE register of a STORE (R92). -/
  rd : RegIndex
  /-- Source register index A. -/
  ra : RegIndex
  /-- Source register index B. -/
  rb : RegIndex
  /-- Label identifier of the branch target (R98). -/
  lab : Label
  /-- Signed immediate (R97). -/
  imm : Word
deriving DecidableEq, Repr

/-- The nine opcodes (R2, R91), in the order of their opcode numbers (R94). -/
inductive Instr where
  /-- `ADD Rd,Ra,Rb` (R230). -/
  | add (f : Fields)
  /-- `SUB Rd,Ra,Rb` (R231). -/
  | sub (f : Fields)
  /-- `LOAD Rd, imm(Ra)` (R250). -/
  | load (f : Fields)
  /-- `STORE Rv, imm(Rb)`: the value register in `ra`, the base register in `rd` (R255). -/
  | store (f : Fields)
  /-- `BEQ Ra,Rb,label` (R270). -/
  | beq (f : Fields)
  /-- `JUMP label` (R271). -/
  | jump (f : Fields)
  /-- `OUT port,Ra`: the port index in `imm` (R290). -/
  | out (f : Fields)
  /-- `SET Rd,imm` (R232). -/
  | set (f : Fields)
  /-- `NOP` (R295). -/
  | nop (f : Fields)
deriving DecidableEq, Repr

/-- The fields of an instruction (R15). -/
def Instr.fields : Instr → Fields
  | .add f => f
  | .sub f => f
  | .load f => f
  | .store f => f
  | .beq f => f
  | .jump f => f
  | .out f => f
  | .set f => f
  | .nop f => f

end Sys2Proof
end

