-- ==== Sys2Proof/Decode.lean ====
section
/-! DEFINITION. The binary instruction word of 30_encoding.md section 2: the decoder, total on every word and refusing a
reserved opcode by name, and the encoder. -/

namespace Sys2Proof

/-- Why a word is no instruction. -/
inductive DecodeError where
  /-- `iw[63:60]` is one of the reserved numbers 9 to 15 (R94, R100). -/
  | reservedOpcode (op : BitVec 4)
deriving DecidableEq, Repr

/-- The field layout of R93. The immediate is the 32-bit field itself: at `XLEN = 32` its sign extension is the identity (R97). -/
def decodeFields (w : InstrWord) : Fields where
  rd := w.extractLsb' 56 4
  ra := w.extractLsb' 52 4
  rb := w.extractLsb' 48 4
  lab := w.extractLsb' 32 16
  imm := w.extractLsb' 0 32

/-- `decode` of R93: the instruction is selected by `iw[63:60]` alone (R94); a reserved number is refused by name (R100). -/
def decode (w : InstrWord) : Except DecodeError Instr :=
  let f := decodeFields w
  match (w.extractLsb' 60 4).toNat with
  | 0 => .ok (.add f)
  | 1 => .ok (.sub f)
  | 2 => .ok (.load f)
  | 3 => .ok (.store f)
  | 4 => .ok (.beq f)
  | 5 => .ok (.jump f)
  | 6 => .ok (.out f)
  | 7 => .ok (.set f)
  | 8 => .ok (.nop f)
  | _ => .error (.reservedOpcode (w.extractLsb' 60 4))

/-- The opcode number of R94. -/
def Instr.opcode : Instr → BitVec 4
  | .add _ => 0
  | .sub _ => 1
  | .load _ => 2
  | .store _ => 3
  | .beq _ => 4
  | .jump _ => 5
  | .out _ => 6
  | .set _ => 7
  | .nop _ => 8

/-- `encode(i) = i.op ++ i.rd ++ i.ra ++ i.rb ++ i.lab ++ i.imm[31:0]` (R93). -/
def encode (i : Instr) : InstrWord :=
  i.opcode ++ i.fields.rd ++ i.fields.ra ++ i.fields.rb ++ i.fields.lab ++ i.fields.imm

/-- The decoder's reading of a word whose lowest `nbits` bits are those of `w` and whose other bits are 0. The instruction is
one 64-bit number (R93, R95, R102), so there is no byte or word order to lay out (R66). -/
def decodeTableWord (nbits w : Nat) : Option Instr :=
  match decode (BitVec.ofNat 64 (w % 2 ^ nbits)) with
  | .ok i => some i
  | .error _ => none

end Sys2Proof
end

