-- ==== Sys2Proof/Config.lean ====
section
/-! DEFINITION. The parameters of the transition (00_scope.md R8, 10_state.md R39): the OPEN sizes, the choice for register 0
on the forwarding paths, and what the Loader and the Driver hand over for a run. The spec leaves no value free
(93_implementation_defined.md section 1), so there is no opaque constant. -/

namespace Sys2Proof

/-- `FWD_ZERO_REG`: whether the forwarding unit forwards a result whose destination is register 0 (R8, R158, D18). -/
inductive FwdZeroReg where
  | forward
  | suppress
deriving DecidableEq, Repr

/-- The run's parameters. No step changes them (R39, R44: "immutable for the run"). The defaults of `memWords`, `nPorts` and
`fwdZeroReg` are the spec's (R8); those of the per-run inputs are DESIGN CHOICE (log 4). -/
structure Config where
  /-- `MEM_WORDS`, OPEN, default 256 (D3). -/
  memWords : Nat := 256
  /-- `NPORTS`, OPEN, default 4 (D4). -/
  nPorts : Nat := 4
  /-- `FWD_ZERO_REG`, default `forward` (D18). -/
  fwdZeroReg : FwdZeroReg := .forward
  /-- `PROG` as the instruction port shows it, one 64-bit word an index (R44, R93). -/
  prog : List InstrWord := []
  /-- The instructions' source texts by index: "for tracing only" (R90, R48); read by the observer alone. -/
  text : List String := []
  /-- `LT`, the Label Table, a partial map: an entry counts if it is the first for its label (R45, log 12). -/
  labels : List (Label × InstrIndex) := []
  /-- `MAX_CYCLES`, the cycle cap of the run (R8, R49). -/
  maxCycles : Nat := 1000
deriving DecidableEq, Repr

end Sys2Proof
end

