-- ==== Sys2Proof/Machine/State.lean ====
section
/-! DEFINITION. The complete state of the core (10_state.md R37), its reset value (R50), and the reasons a step of the model
can stop (60_exceptions.md R319). Plain data throughout. -/

namespace Sys2Proof.Machine

/-- The IF/ID latch's occupant (R31). -/
structure IfId where
  pc : InstrIndex
  instr : Instr
deriving DecidableEq, Repr

/-- The ID/EX latch's occupant: the three operand values read at decode time (R32). -/
structure IdEx where
  pc : InstrIndex
  instr : Instr
  vd : Word
  va : Word
  vb : Word
deriving DecidableEq, Repr

/-- The EX/MEM latch's occupant: the ALU result and the store value (R33). -/
structure ExMem where
  pc : InstrIndex
  instr : Instr
  alu : Word
  sv : Word
deriving DecidableEq, Repr

/-- The MEM/WB latch's occupant: the final result to commit (R34). -/
structure MemWb where
  pc : InstrIndex
  instr : Instr
  res : Word
deriving DecidableEq, Repr

/-- One entry of the output history: `(cycle, port, value)` (R27). The port index is in range, so a natural number. -/
structure OutCommit where
  cycle : Nat
  port : Nat
  value : Word
deriving DecidableEq, Repr

/-- The register file, 16 values (R20). -/
abbrev RegFile := Vector Word 16

/-- Data memory: (word index, word) cells with strictly rising indices and no cell that holds 0, the value an unlisted word
reads as (R28, R50, R66; log 7). -/
abbrev Memory := List (Nat × Word)

/-- The machine. Each latch is an option, "never a validity bit beside raw fields" (R30). -/
structure State where
  /-- The run's parameters, which no step changes (R39; log 3). -/
  cfg : Config
  /-- Index of the next instruction the IF step would fetch (R24). -/
  pc : InstrIndex
  /-- `x[0..15]` (R20). -/
  regs : RegFile
  /-- `M` (R28). -/
  mem : Memory
  /-- `P[0..NPORTS-1]` (R26). -/
  ports : List Word
  ifid : Option IfId
  idex : Option IdEx
  exmem : Option ExMem
  memwb : Option MemWb
  /-- Cycle transitions performed since reset (R40). -/
  cycles : Nat
  /-- Instructions that have passed the WB step (R41). -/
  retired : Nat
  /-- `OUTLOG`, oldest commit first (R27). -/
  outLog : List OutCommit
deriving DecidableEq, Repr

/-- Why the model stops with a fault. The hardware itself raises no exception (R310). -/
inductive Fault where
  /-- `MemRangeFault(a)`: raised by the MEM step of a LOAD or STORE whose address is aligned and selects no word of `M`
  (R65, U1). SAFE: the spec gives the run no meaning from there on, and nothing can be proved of it. -/
  | memRange (a : Word)
deriving DecidableEq, Repr

/-- Why the model refuses. All but the first are the spec's own refusals (R319, R353); SAFE: no run exists. -/
inductive Refusal where
  /-- Raised by an arm of `exec` that has no meaning yet (there is none). SAFE. -/
  | notModelled (mnemonic : String)
  /-- Raised before a cycle, or by a fetch, for a word of the program whose opcode number is reserved; `index` is where it stands (R100, U7). -/
  | reservedOpcode (index : Nat)
  /-- Raised before a cycle for an OUT of the program whose port index is outside the array (R109, U2). -/
  | illFormedPort (index : Nat)
  /-- Raised by the WB step for an OUT whose port index is outside the array; only in a state whose latches hold what its
  program does not, which no run reaches (R109, log 10). -/
  | portOutOfRange (port : Word)
  /-- Raised before a cycle when `MAX_CYCLES < 1` (R49, U10). -/
  | badCycleCap
  /-- Raised before a cycle when `PROG_LEN >= 2^32` (R8, D22). -/
  | programTooLong
  /-- Raised before a cycle when `MEM_WORDS` or `NPORTS` is 0 (D3, D4). -/
  | badSizes
deriving DecidableEq, Repr

/-- The state after reset of a core that runs with the parameters `c` (R50, R350). -/
def State.resetWith (c : Config) : State where
  cfg := c
  pc := 0
  regs := Vector.replicate 16 0
  mem := []
  ports := List.replicate c.nPorts 0
  ifid := none
  idex := none
  exmem := none
  memwb := none
  cycles := 0
  retired := 0
  outLog := []

/-- The machine right after reset (R50), with the spec's default sizes and no program loaded (log 4). -/
def State.reset : State := State.resetWith {}

end Sys2Proof.Machine
end

