-- ==== Sys2Proof/WellFormed.lean ====
section
/-! DEFINITION. What the Loader owes the core before a run (70_reset_and_hazards.md R353, 60_exceptions.md R319). A register
index is in range by its type (R96, R108); a reserved opcode is found by the decoder (R100). -/

namespace Sys2Proof

/-- The port index of an OUT lies in `0 .. NPORTS-1` (R109, D6); every other instruction is well-formed as it stands. -/
def Instr.wellFormed (nPorts : Nat) : Instr → Bool
  | .out f => decide (0 ≤ f.imm.toInt ∧ f.imm.toInt < nPorts)
  | .add _ => true
  | .sub _ => true
  | .load _ => true
  | .store _ => true
  | .beq _ => true
  | .jump _ => true
  | .set _ => true
  | .nop _ => true

/-- `MAX_CYCLES >= 1` (R49, D21). -/
def Config.capOk (c : Config) : Bool := decide (1 ≤ c.maxCycles)

/-- `PROG_LEN < 2^PC_BITS` (R8, D22). -/
def Config.lengthOk (c : Config) : Bool := decide (c.prog.length < 2 ^ 32)

/-- The OPEN sizes are positive natural numbers (D3, D4). -/
def Config.sizesOk (c : Config) : Bool := decide (1 ≤ c.memWords ∧ 1 ≤ c.nPorts)

end Sys2Proof
end

