-- ==== Sys2Proof/Machine/Ops.lean ====
section
/-! DEFINITION. The named operations over registers, data memory, output ports, the Label Table and the program
(20_memory.md, 10_state.md section 8), and the checks made before a run. There is no taking of an exception and no return
from one to model: the hardware has no trap entry and no trap return (60_exceptions.md R310, R315, R317). -/

namespace Sys2Proof.Machine

/-- Do `k` with the value of `o`; a fault or a refusal of `o` ends the step. -/
def andThen {α β : Type} (o : Host.Outcome α Fault Refusal) (k : α → Host.Outcome β Fault Refusal) :
    Host.Outcome β Fault Refusal :=
  match o with
  | .next a => k a
  | .fault r => .fault r
  | .refused r => .refused r

/-! ### Registers -/

/-- `x[i]`, a read of the register file (R11). -/
def RegFile.read (x : RegFile) (i : RegIndex) : Word := x[i.toNat]'i.isLt

/-- `x[i] <- v` (R11), the bare array write; the zero register is re-asserted by `RegFile.assertZero`. -/
def RegFile.write (x : RegFile) (i : RegIndex) (v : Word) : RegFile := x.set i.toNat v i.isLt

/-- `x[0] <- 0`, the end of every WB step (R22, R195). -/
def RegFile.assertZero (x : RegFile) : RegFile := x.set 0 0

/-- The register file of a state at a register index. -/
def State.reg (s : State) (i : RegIndex) : Word := s.regs.read i

/-! ### Data memory -/

/-- The word at index `k`; an unlisted word reads as its reset value 0 (R28, R50). -/
def Memory.read : Memory → Nat → Word
  | [], _ => 0
  | (j, w) :: m, k => if j = k then w else Memory.read m k

/-- Put `v` before a list of cells that all lie above `k`: a word that is 0 is not listed. -/
def Memory.cons (k : Nat) (v : Word) (m : Memory) : Memory := if v = 0 then m else (k, v) :: m

/-- `M[k] <- v`, keeping the canonical form. -/
def Memory.write : Memory → Nat → Word → Memory
  | [], k, v => Memory.cons k v []
  | (j, w) :: m, k, v =>
    if k < j then Memory.cons k v ((j, w) :: m)
    else if k = j then Memory.cons k v m
    else (j, w) :: Memory.write m k v

/-- Every cell's index is above `lo` (all of them where `lo` is `none`), the indices rise strictly, and no cell holds 0. -/
def Memory.wfAbove : Option Nat → Memory → Bool
  | _, [] => true
  | lo, (k, v) :: m => lo.all (· < k) && v != 0 && Memory.wfAbove (some k) m

/-- The canonical form: strictly rising word indices and no cell that holds 0. Equal memories are then equal data. -/
def Memory.wf (m : Memory) : Bool := Memory.wfAbove none m

/-- `aligned(a)`: `a mod 4 = 0`, that is `a[1:0] = 0`, for negative addresses as well (R62, D24). -/
def aligned (a : Word) : Bool := a.extractLsb' 0 2 == 0

/-- What a byte address means to the data port (R62, R63, R65). -/
inductive Access where
  /-- Not a multiple of the word size: a load yields 0, a store is dropped. -/
  | misaligned
  /-- Aligned, and word `k` of `M` is meant. -/
  | word (k : Nat)
  /-- Aligned, and no word of `M` is meant. -/
  | outside
deriving DecidableEq, Repr

/-- The alignment test comes first, whatever the magnitude; then `0 <= a/4 < MEM_WORDS` on the signed address (R63, R64). -/
def locate (memWords : Nat) (a : Word) : Access :=
  if aligned a then
    if 0 ≤ a.toInt ∧ a.toInt / wordBytes < memWords then .word (a.toInt / wordBytes).toNat else .outside
  else .misaligned

/-- `MemRead(a, 4)` (R63). -/
def memRead (memWords : Nat) (m : Memory) (a : Word) : Host.Outcome Word Fault Refusal :=
  match locate memWords a with
  | .misaligned => .next 0
  | .word k => .next (m.read k)
  | .outside => .fault (.memRange a)

/-- `MemWrite(a, 4, v)` (R64). -/
def memWrite (memWords : Nat) (m : Memory) (a v : Word) : Host.Outcome Memory Fault Refusal :=
  match locate memWords a with
  | .misaligned => .next m
  | .word k => .next (m.write k v)
  | .outside => .fault (.memRange a)

/-! ### Output ports -/

/-- The index an OUT's immediate names in an array of `nPorts` ports, where it names one (R97, R109). -/
def portIndex (nPorts : Nat) (imm : Word) : Option Nat :=
  if 0 ≤ imm.toInt ∧ imm.toInt < nPorts then some imm.toInt.toNat else none

/-- `P[k]`; an index outside the array holds nothing and reads as 0 (no rule reads it). -/
def State.port (s : State) (k : Nat) : Word := s.ports.getD k 0

/-- OUT's commit: the port takes the value, and `(cycle, port, value)` joins the history, the current cycle being number
`cycles + 1` (R195, R291). -/
def writePort (s : State) (imm v : Word) : Host.Outcome State Fault Refusal :=
  match portIndex s.cfg.nPorts imm with
  | some k => .next { s with ports := s.ports.set k v, outLog := s.outLog ++ [⟨s.cycles + 1, k, v⟩] }
  | none => .refused (.portOutOfRange imm)

/-! ### Label Table -/

/-- `LT(l)`: `found(a)` is `some a`, `notfound` is `none` (R14, R45). -/
def labelTarget (c : Config) (l : Label) : Option InstrIndex := c.labels.lookup l

/-! ### Program -/

/-- `PROG[k]` as the instruction port shows it, where `k < PROG_LEN` (R44). -/
def progWord (c : Config) (k : InstrIndex) : Option InstrWord := c.prog[k.toNat]?

/-- `PROG[k]` decoded, where `k < PROG_LEN` and the word is an instruction. -/
def progInstr (c : Config) (k : InstrIndex) : Option Instr :=
  match progWord c k with
  | none => none
  | some w =>
    match decode w with
    | .ok i => some i
    | .error _ => none

/-- `pc < PROG_LEN`, "within program bounds" (R24, R213). -/
def inBounds (c : Config) (k : InstrIndex) : Bool := decide (k.toNat < c.prog.length)

/-- The fetch of R213: the instruction at `pc` into IF/ID and `pc + 1`; past the end, an empty IF/ID and `pc` as it is. A
reserved opcode has no meaning (R100); a run never meets one here, its image having been refused (log 9). -/
def fetch (c : Config) (pc : InstrIndex) : Host.Outcome (Option IfId × InstrIndex) Fault Refusal :=
  match progWord c pc with
  | none => .next (none, pc)
  | some w =>
    match decode w with
    | .ok i => .next (some ⟨pc, i⟩, pc + 1)
    | .error _ => .refused (.reservedOpcode pc.toNat)

/-! ### Before a run -/

/-- What is wrong with the words of an image from index `k` on: a reserved opcode (R100) or a port index outside the array
(R109). -/
def imageProblem (nPorts : Nat) : Nat → List InstrWord → Option Refusal
  | _, [] => none
  | k, w :: ws =>
    match decode w with
    | .error _ => some (.reservedOpcode k)
    | .ok i => if i.wellFormed nPorts then imageProblem nPorts (k + 1) ws else some (.illFormedPort k)

/-- The first reason to refuse a run with these parameters, if there is one (R319 (2) and (3), R353; log 9). -/
def loadProblem (c : Config) : Option Refusal :=
  if !c.sizesOk then some .badSizes
  else if !c.capOk then some .badCycleCap
  else if !c.lengthOk then some .programTooLong
  else imageProblem c.nPorts 0 c.prog

/-! ### Termination and reset -/

/-- `done`: `pc` has exhausted the stream and all four latches are empty (R42, R216). -/
def State.done (s : State) : Bool :=
  !inBounds s.cfg s.pc && s.ifid.isNone && s.idex.isNone && s.exmem.isNone && s.memwb.isNone

/-- `capped`: `cycles >= MAX_CYCLES` (R42, R217). -/
def State.capped (s : State) : Bool := decide (s.cfg.maxCycles ≤ s.cycles)

/-- `rst`: every piece of state to its reset value, whatever the previous state; the parameters stand (R350). -/
def State.restart (s : State) : State := State.resetWith s.cfg

/-- `PROG` with the word `w` at index `k`; a stream that ends before `k` is first filled up with NOP words (log 5). -/
def placeWord (prog : List InstrWord) (k : Nat) (w : InstrWord) : List InstrWord :=
  (prog ++ List.replicate (k + 1 - prog.length) 0x8000000000000000#64).set k w

end Sys2Proof.Machine
end

