-- ==== Sys2Proof/Machine/Operands.lean ====
section
/-! DEFINITION. The predicates over an instruction that the units share (40_hazard_detection.md section 1), the operand read of
the ID step, the hazard check, and the forwarding unit (41_forwarding.md). There is one addressing mode, base plus immediate
(R258). -/

namespace Sys2Proof.Machine

/-- `writes_back(i)`, looking at the opcode only (R131). -/
def writesBack : Instr → Bool
  | .add _ => true
  | .sub _ => true
  | .load _ => true
  | .set _ => true
  | .store _ => false
  | .beq _ => false
  | .jump _ => false
  | .out _ => false
  | .nop _ => false

/-- `i.op = LOAD`, the only opcode that can cause a stall (R133) and that step (a) of forwarding skips (R153). -/
def isLoad : Instr → Bool
  | .load _ => true
  | .add _ => false
  | .sub _ => false
  | .set _ => false
  | .store _ => false
  | .beq _ => false
  | .jump _ => false
  | .out _ => false
  | .nop _ => false

/-- `i.op = STORE`, the only opcode whose MEM step writes memory (R198). -/
def isStore : Instr → Bool
  | .store _ => true
  | .add _ => false
  | .sub _ => false
  | .load _ => false
  | .set _ => false
  | .beq _ => false
  | .jump _ => false
  | .out _ => false
  | .nop _ => false

/-- `i.op = OUT`, the only opcode whose WB step writes a port (R195). -/
def isOut : Instr → Bool
  | .out _ => true
  | .add _ => false
  | .sub _ => false
  | .load _ => false
  | .set _ => false
  | .store _ => false
  | .beq _ => false
  | .jump _ => false
  | .nop _ => false

/-- `srcs(i)`, the register indices the instruction reads as operands (R132). -/
def srcs : Instr → List RegIndex
  | .add f => [f.ra, f.rb]
  | .sub f => [f.ra, f.rb]
  | .beq f => [f.ra, f.rb]
  | .load f => [f.ra]
  | .store f => [f.ra, f.rd]
  | .out f => [f.ra]
  | .set _ => []
  | .jump _ => []
  | .nop _ => []

/-! ### Hazard detection -/

/-- `hazard(S)`: a LOAD in ID/EX whose destination the instruction in IF/ID names as a source; no exception for register 0
(R133, R139). -/
def hazard (s : State) : Bool :=
  match s.idex, s.ifid with
  | some e, some d => isLoad e.instr && (srcs d.instr).contains e.instr.fields.rd
  | _, _ => false

/-- The stall signal: the check runs only if IF/ID is occupied and no transfer was taken (R134, R205). -/
def stall (s : State) (taken : Bool) : Bool := !taken && hazard s

/-! ### Operand read -/

/-- The ID step's read of all three register fields, for every opcode (R32, R206). -/
def capture (x : RegFile) (pc : InstrIndex) (i : Instr) : IdEx where
  pc := pc
  instr := i
  vd := x.read i.fields.rd
  va := x.read i.fields.ra
  vb := x.read i.fields.rb

/-! ### Forwarding -/

/-- The three operand values of the EX step (R150). -/
structure Operands where
  fd : Word
  fa : Word
  fb : Word
deriving DecidableEq, Repr

/-- Starting values: those captured at decode time (R151). -/
def captured (e : IdEx) : Operands := ⟨e.vd, e.va, e.vb⟩

/-- A producer's result replaces every field of the consumer that names its destination, whether or not the opcode uses the
field (R152). -/
def replaceMatching (f : Fields) (rd : RegIndex) (v : Word) (o : Operands) : Operands where
  fd := if f.rd = rd then v else o.fd
  fa := if f.ra = rd then v else o.fa
  fb := if f.rb = rd then v else o.fb

/-- Whether a destination may be forwarded from: every one, unless `FWD_ZERO_REG = suppress` and it is register 0 (R158). -/
def mayForward (c : Config) (rd : RegIndex) : Bool :=
  match c.fwdZeroReg with
  | .forward => true
  | .suppress => rd != 0

/-- Step (a), from EX/MEM: a producer that writes back and is not a LOAD (R153). -/
def forwardExMem (c : Config) (m : Option ExMem) (f : Fields) (o : Operands) : Operands :=
  match m with
  | none => o
  | some p =>
    if writesBack p.instr && !isLoad p.instr && mayForward c p.instr.fields.rd then
      replaceMatching f p.instr.fields.rd p.alu o
    else o

/-- Step (b), from MEM/WB: a producer that writes back, a LOAD included (R154). -/
def forwardMemWb (c : Config) (w : Option MemWb) (f : Fields) (o : Operands) : Operands :=
  match w with
  | none => o
  | some p =>
    if writesBack p.instr && mayForward c p.instr.fields.rd then
      replaceMatching f p.instr.fields.rd p.res o
    else o

/-- The forwarding unit: captured values, step (a), then step (b), which therefore overrides it, the farther producer
winning (R155, R156). -/
def forward (s : State) (e : IdEx) : Operands :=
  forwardMemWb s.cfg s.memwb e.instr.fields (forwardExMem s.cfg s.exmem e.instr.fields (captured e))

end Sys2Proof.Machine
end

