-- ==== Sys2Proof/Machine/Stages.lean ====
section
/-! DEFINITION. The stage-advance protocol (43_stage_advance.md): the steps WB, MEM, ID and IF, and the clock cycle as a
function of what the EX step produced. The EX step of each instruction is its meaning, in the family files; `executeCycle` is
the cycle around it. -/

namespace Sys2Proof.Machine

/-- Step 1's commit of the occupant of MEM/WB: the register file for an instruction that writes back, the port array for OUT,
nothing for the others (R195). -/
def commit (s : State) (w : MemWb) : Host.Outcome State Fault Refusal :=
  if writesBack w.instr then .next { s with regs := s.regs.write w.instr.fields.rd w.res }
  else if isOut w.instr then writePort s w.instr.fields.imm w.res
  else .next s

/-- Step 1, WB: commit, count the instruction as retired, and always re-assert the zero register (R195). -/
def wbStep (s : State) : Host.Outcome State Fault Refusal :=
  match s.memwb with
  | none => .next { s with regs := s.regs.assertZero }
  | some w => andThen (commit s w) fun t => .next { t with regs := t.regs.assertZero, retired := t.retired + 1 }

/-- Step 2, MEM: LOAD reads, STORE writes, every other opcode passes its ALU result through; the memory and the next MEM/WB
latch (R198). -/
def memStep (s : State) : Host.Outcome (Memory × Option MemWb) Fault Refusal :=
  match s.exmem with
  | none => .next (s.mem, none)
  | some m =>
    if isLoad m.instr then
      andThen (memRead s.cfg.memWords s.mem m.alu) fun v => .next (s.mem, some ⟨m.pc, m.instr, v⟩)
    else if isStore m.instr then
      andThen (memWrite s.cfg.memWords s.mem m.alu m.sv) fun t => .next (t, some ⟨m.pc, m.instr, m.alu⟩)
    else .next (s.mem, some ⟨m.pc, m.instr, m.alu⟩)

/-- Step 4, ID: the next ID/EX latch, from the snapshot `s` and the register file `x` after this cycle's WB step. Empty if
IF/ID is empty, if a transfer was taken, or on a hazard (R205, R206, R207). -/
def idStep (s : State) (x : RegFile) (taken : Bool) : Option IdEx :=
  match s.ifid with
  | none => none
  | some d => if taken || hazard s then none else some (capture x d.pc d.instr)

/-- Step 5, IF: the next IF/ID latch and pc. A taken transfer first (R210), a stall second (R211), a fetch otherwise (R213). -/
def ifStep (s : State) (redirect : Option InstrIndex) : Host.Outcome (Option IfId × InstrIndex) Fault Refusal :=
  match redirect with
  | some target => .next (none, target)
  | none => if stall s false then .next (s.ifid, s.pc) else fetch s.cfg s.pc

/-- One clock cycle from the snapshot `s`, where the EX step has produced the next EX/MEM latch `ex` and the target
`redirect` of a taken transfer: WB, MEM, ID and IF in the order of R190, then the commit of all next values together and
`cycles + 1` (R191, R215). -/
def finishCycle (s : State) (ex : Option ExMem) (redirect : Option InstrIndex) : Host.Outcome State Fault Refusal :=
  andThen (wbStep s) fun t =>
  andThen (memStep s) fun m =>
  andThen (ifStep s redirect) fun f =>
  .next { t with
    pc := f.2
    mem := m.1
    ifid := f.1
    idex := idStep s t.regs redirect.isSome
    exmem := ex
    memwb := m.2
    cycles := s.cycles + 1 }

/-- A cycle whose snapshot has ID/EX empty: nothing is executed and nothing is taken (R171, R201). -/
def bubbleCycle (s : State) : Host.Outcome State Fault Refusal := finishCycle s none none

/-- What the EX step of an instruction yields: the ALU result, the store value (0 but for a STORE, D10), and the target of a
taken transfer (R176, R201). -/
structure ExOut where
  alu : Word
  sv : Word := 0
  redirect : Option InstrIndex := none
deriving DecidableEq, Repr

/-- The ID/EX occupant that executes `i` in `s`: the one the latch holds. Where `s` has none (no step asks this), `i` is taken
as decoded in `s` at `pc` (log 2). -/
def exSlot (i : Instr) (s : State) : IdEx :=
  match s.idex with
  | some e => { e with instr := i }
  | none => capture s.regs s.pc i

/-- `s` with `i` in ID/EX; this is `s` itself where the latch holds `i`. -/
def State.issue (i : Instr) (s : State) : State := { s with idex := some (exSlot i s) }

/-- The cycle in which `i` is in the EX step: the forwarded operands, the result `ex` computes from them, the next EX/MEM
latch, and the rest of the cycle (R201, R215). -/
def executeCycle (i : Instr) (ex : Operands → ExOut) (s : State) : Host.Outcome State Fault Refusal :=
  let e := exSlot i s
  let r := ex (forward s e)
  finishCycle (s.issue i) (some ⟨e.pc, i, r.alu, r.sv⟩) r.redirect

end Sys2Proof.Machine
end

