-- ==== Sys2Proof/Machine/Arithmetic.lean ====
section
/-! DEFINITION. ADD, SUB and SET (44_arithmetic.md). The register write of all three is in WB, two cycles on (`commit`). -/

namespace Sys2Proof.Machine

/-- `alu := fa +w fb` (R230); overflow wraps, with no flag and no trap (R233). -/
def exAdd (o : Operands) : ExOut := { alu := o.fa + o.fb }

/-- ADD in the EX step (R230). -/
def execAdd (f : Fields) (s : State) : Host.Outcome State Fault Refusal := executeCycle (.add f) exAdd s

/-- `alu := fa -w fb`, the first source minus the second (R231, D8). -/
def exSub (o : Operands) : ExOut := { alu := o.fa - o.fb }

/-- SUB in the EX step (R231). -/
def execSub (f : Fields) (s : State) : Host.Outcome State Fault Refusal := executeCycle (.sub f) exSub s

/-- `alu := imm`; forwarding is applied and its result ignored (R232). -/
def exSet (f : Fields) (_o : Operands) : ExOut := { alu := f.imm }

/-- SET in the EX step (R232). -/
def execSet (f : Fields) (s : State) : Host.Outcome State Fault Refusal := executeCycle (.set f) (exSet f) s

end Sys2Proof.Machine
end

