-- ==== Sys2Proof/Machine/Flags.lean ====
section
/-! DEFINITION. There are no flags, condition codes or predicate registers, and no instruction writes one (10_state.md R29).
The one comparison of the machine is BEQ's equality test, which records nothing (R29, R233). -/

namespace Sys2Proof.Machine

/-- Equality of all `XLEN` bits (R10, R172). -/
def equalValues (a b : Word) : Bool := a == b

end Sys2Proof.Machine
end

