-- ==== Sys2Proof/Machine/Control.lean ====
section
/-! DEFINITION. BEQ and JUMP (46_control_transfer.md), resolved in the EX step (42_branch_flush.md). A label that the table
does not hold makes the transfer fall through silently (R173). -/

namespace Sys2Proof.Machine

/-- Taken if the two forwarded values are equal and the label is found (R172); `alu := 0`. -/
def exBeq (c : Config) (f : Fields) (o : Operands) : ExOut :=
  { alu := 0, redirect := if equalValues o.fa o.fb then labelTarget c f.lab else none }

/-- BEQ in the EX step (R270). -/
def execBeq (f : Fields) (s : State) : Host.Outcome State Fault Refusal := executeCycle (.beq f) (exBeq s.cfg f) s

/-- Taken if the label is found (R174); `alu := 0`. -/
def exJump (c : Config) (f : Fields) (_o : Operands) : ExOut := { alu := 0, redirect := labelTarget c f.lab }

/-- JUMP in the EX step (R271). -/
def execJump (f : Fields) (s : State) : Host.Outcome State Fault Refusal := executeCycle (.jump f) (exJump s.cfg f) s

end Sys2Proof.Machine
end

