-- ==== Sys2Proof/Machine/LoadStore.lean ====
section
/-! DEFINITION. LOAD and STORE (45_load_store.md). The EX step computes the address; the access itself, with the alignment
fallback and the range fault, is the MEM step of the next cycle (`memStep`), and LOAD's register write is in WB (`commit`). -/

namespace Sys2Proof.Machine

/-- `alu := fa +w imm` (R251), modulo `2^32` (R258). -/
def exLoad (f : Fields) (o : Operands) : ExOut := { alu := o.fa + f.imm }

/-- LOAD in the EX step (R250); it is the only opcode that stalls the instruction behind it (`hazard`). -/
def execLoad (f : Fields) (s : State) : Host.Outcome State Fault Refusal := executeCycle (.load f) (exLoad f) s

/-- `alu := fd +w imm`, the base being the `rd` field's register, and `sv := fa` (R256). -/
def exStore (f : Fields) (o : Operands) : ExOut := { alu := o.fd + f.imm, sv := o.fa }

/-- STORE in the EX step (R255). -/
def execStore (f : Fields) (s : State) : Host.Outcome State Fault Refusal := executeCycle (.store f) (exStore f) s

end Sys2Proof.Machine
end

