-- ==== Sys2Proof/Machine/Output.lean ====
section
/-! DEFINITION. OUT and NOP (47_output_nop.md). OUT's port write and its commit are in WB (`commit`, `writePort`). -/

namespace Sys2Proof.Machine

/-- `alu := fa`, "pass-through of its source value" (R290). -/
def exOutput (o : Operands) : ExOut := { alu := o.fa }

/-- OUT in the EX step (R290). -/
def execOut (f : Fields) (s : State) : Host.Outcome State Fault Refusal := executeCycle (.out f) exOutput s

/-- `alu := 0` (R295, D10). -/
def exNop (_o : Operands) : ExOut := { alu := 0 }

/-- NOP in the EX step: it occupies its latches and is counted, and does nothing else (R295). -/
def execNop (f : Fields) (s : State) : Host.Outcome State Fault Refusal := executeCycle (.nop f) exNop s

end Sys2Proof.Machine
end

