-- ==== Sys2Proof/Machine/Dispatch.lean ====
section
/-! DEFINITION. exec i s: the clock cycle of s in which the instruction i is in the EX step (43_stage_advance.md R201, R215;
log 1). One arm per opcode (30_encoding.md R91). -/

namespace Sys2Proof.Machine

def exec (i : Instr) (s : State) : Host.Outcome State Fault Refusal :=
  match i with
  | .add f => Sys2Proof.Machine.execAdd f s
  | .sub f => Sys2Proof.Machine.execSub f s
  | .load f => Sys2Proof.Machine.execLoad f s
  | .store f => Sys2Proof.Machine.execStore f s
  | .beq f => Sys2Proof.Machine.execBeq f s
  | .jump f => Sys2Proof.Machine.execJump f s
  | .out f => Sys2Proof.Machine.execOut f s
  | .set f => Sys2Proof.Machine.execSet f s
  | .nop f => Sys2Proof.Machine.execNop f s

end Sys2Proof.Machine
end

