-- ==== Sys2Proof/Machine/Step.lean ====
section
/-! DEFINITION. One rising clock edge with rst = 0 (10_state.md R49, 43_stage_advance.md R215, R218), and the placing of one
instruction so that the next step runs it. -/

namespace Sys2Proof.Machine

/-- One step: an ill-formed configuration is refused (R319); a state that is `done` or `capped` holds (R218); otherwise one
clock cycle, which is `exec` of the instruction in ID/EX, or a cycle that executes nothing where ID/EX is empty. -/
def step (s : State) : Host.Outcome State Fault Refusal :=
  match loadProblem s.cfg with
  | some r => .refused r
  | none =>
    if s.done || s.capped then .next s
    else
      match s.idex with
      | some e => exec e.instr s
      | none => bubbleCycle s

/-- `s` with the instruction word `w` (its lowest `nbits` bits, the others 0) loaded at index `pc` of the program, and with
its fetch and its decode done, so that the very next step executes it: it is in ID/EX with the operand values the register
file holds, and `pc` is one on. The cycle cap is raised where it would hold the step back. A word that is no instruction is
loaded and not decoded; the step then refuses the image (log 5). -/
def State.withFetchWord (s : State) (nbits w : Nat) : State :=
  let word : InstrWord := BitVec.ofNat 64 (w % 2 ^ nbits)
  let cfg := { s.cfg with
    prog := placeWord s.cfg.prog s.pc.toNat word
    maxCycles := max s.cfg.maxCycles (s.cycles + 1) }
  match decodeTableWord nbits w with
  | some i => { s with cfg := cfg, idex := some (capture s.regs s.pc i), pc := s.pc + 1 }
  | none => { s with cfg := cfg }

end Sys2Proof.Machine
end

