-- ==== Sys2Proof/Machine/Signals.lean ====
section
/-! DEFINITION. The signals inside one cycle as functions of its snapshot (10_state.md R35 (b) and (c)): they are no state
(R37, R137, R176). -/

namespace Sys2Proof.Machine

/-- What the EX step yields for an instruction and its forwarded operands (R201). -/
def exResult (c : Config) (i : Instr) (o : Operands) : ExOut :=
  match i with
  | .add _ => exAdd o
  | .sub _ => exSub o
  | .load f => exLoad f o
  | .store f => exStore f o
  | .beq f => exBeq c f o
  | .jump f => exJump c f o
  | .out _ => exOutput o
  | .set f => exSet f o
  | .nop _ => exNop o

/-- `taken` and `target` of the cycle that starts from `s`: the target of the transfer taken in it, if one is (R176). -/
def takenTarget (s : State) : Option InstrIndex :=
  match s.idex with
  | some e => (exResult s.cfg e.instr (forward s e)).redirect
  | none => none

/-- `stall` of the cycle that starts from `s` (R134, R137). -/
def stallSignal (s : State) : Bool := stall s (takenTarget s).isSome

/-- The EX/MEM latch that the EX step of the cycle from `s` produces (R201). -/
def nextExMem (s : State) : Option ExMem :=
  match s.idex with
  | some e =>
    let r := exResult s.cfg e.instr (forward s e)
    some ⟨e.pc, e.instr, r.alu, r.sv⟩
  | none => none

end Sys2Proof.Machine
end

