-- ==== Sys2Proof/Machine/Driver.lean ====
section
/-! DEFINITION. The driver's loop and how a run ends (43_stage_advance.md section 3), and what a run shows cycle by cycle. -/

namespace Sys2Proof.Machine

/-- How a run ended: the cap is "reported distinctly from natural completion" (R217). -/
inductive Termination where
  | naturalCompletion
  | forcedStop
deriving DecidableEq, Repr

/-- The test before each cycle, `done` first (R218, D16). -/
def State.termination (s : State) : Option Termination :=
  if s.done then some .naturalCompletion
  else if s.capped then some .forcedStop
  else none

/-- The clock edge from `s` performs a cycle: the parameters are those of a run (R319) and the run has not ended (R49, R218). -/
def State.running (s : State) : Bool := (loadProblem s.cfg).isNone && s.termination.isNone

/-- At most `n` turns of the driver's loop `while not done and not capped: step` (R218). -/
def driveFor : Nat → State → Host.Outcome (State × Option Termination) Fault Refusal
  | 0, s => .next (s, s.termination)
  | n + 1, s =>
    match s.termination with
    | some r => .next (s, some r)
    | none => andThen (step s) (driveFor n)

/-- The driver: from `s` until the run ends, with what it reports. The turns are as many as the cap leaves, so the loop always
ends (R217, R218); an ill-formed configuration has no run (R319). -/
def drive (s : State) : Host.Outcome (State × Option Termination) Fault Refusal :=
  match loadProblem s.cfg with
  | some r => .refused r
  | none => driveFor (s.cfg.maxCycles - s.cycles) s

/-- What one cycle shows: the EX view, the instruction in WB with its result, whether a transfer is taken, and whether it
stalls. -/
structure CycleRecord where
  execute : Option Instr
  writeBack : Option MemWb
  taken : Bool
  stalled : Bool
deriving DecidableEq, Repr

/-- The record of the cycle that starts from `s`. -/
def cycleRecord (s : State) : CycleRecord where
  execute := s.idex.map IdEx.instr
  writeBack := s.memwb
  taken := (takenTarget s).isSome
  stalled := stallSignal s

/-- The records of the first `n` cycles of the run from `s`, fewer where the run ends before. -/
def cycleTrace : Nat → State → List CycleRecord
  | 0, _ => []
  | n + 1, s =>
    match s.termination with
    | some _ => []
    | none =>
      match step s with
      | .next t => cycleRecord s :: cycleTrace n t
      | .fault _ => []
      | .refused _ => []

/-- Load-use stall cycles of a trace (R370). -/
def stallCount (l : List CycleRecord) : Nat := l.countP (·.stalled)

/-- Taken transfers of a trace that some instruction follows in the EX step: those "other than the last retired instruction
itself" (R370). -/
def takenBeforeLast : List CycleRecord → Nat
  | [] => 0
  | r :: l => (if r.taken && l.any (·.execute.isSome) then 1 else 0) + takenBeforeLast l

end Sys2Proof.Machine
end

