-- ==== Sys2Proof/Machine/Interface.lean ====
section
/-! DEFINITION. The interfaces of 10_state.md section 8 as functions of the state: the instruction, Label Table, data and
output ports, the run control, and the observer, which changes no state (R48). What a step of a cycle presents or signals is
there only in a state from which a cycle is performed (`State.running`): a state that is done or capped holds (R49). -/

namespace Sys2Proof.Machine

/-! ### Ports -/

/-- `imem_addr` (R44). -/
def imemAddr (s : State) : InstrIndex := s.pc

/-- `imem_data`: `PROG[pc]` in the same cycle, when `pc < PROG_LEN` (R44). -/
def imemData (s : State) : Option InstrWord := progWord s.cfg s.pc

/-- `i.lab` where the opcode presents a label, BEQ and JUMP (R45). -/
def presentedLabel : Instr → Option Label
  | .beq f => some f.lab
  | .jump f => some f.lab
  | .add _ => none
  | .sub _ => none
  | .load _ => none
  | .store _ => none
  | .out _ => none
  | .set _ => none
  | .nop _ => none

/-- `lt_id`: the label that a BEQ or JUMP in the EX step presents in the cycle from `s` (R45). -/
def ltId (s : State) : Option Label :=
  if s.running then s.idex.bind fun e => presentedLabel e.instr else none

/-- `lt_found` and `lt_addr`: the table's answer in the same cycle (R45). -/
def ltAddr (s : State) : Option InstrIndex :=
  match ltId s with
  | some l => labelTarget s.cfg l
  | none => none

/-- An access at the data port (R46). -/
inductive DataAccess where
  | read (addr : Word)
  | write (addr data : Word)
deriving DecidableEq, Repr

/-- The access of an instruction in the MEM step: none for a misaligned address, the fallback being applied before the access
reaches the array (R46). -/
def presentedAccess (m : ExMem) : Option DataAccess :=
  if aligned m.alu then
    if isLoad m.instr then some (.read m.alu)
    else if isStore m.instr then some (.write m.alu m.sv)
    else none
  else none

/-- The access the MEM step presents in the cycle from `s`, at most one (R46). -/
def dataPort (s : State) : Option DataAccess :=
  if s.running then s.exmem.bind presentedAccess else none

/-- The word that answers a read in the same cycle (R46); an address that selects no word has no answer (R65). -/
def dataAnswer (s : State) : Option Word :=
  match dataPort s with
  | some (.read a) =>
    match locate s.cfg.memWords a with
    | .word k => some (s.mem.read k)
    | .misaligned => none
    | .outside => none
  | some (.write _ _) => none
  | none => none

/-- The `(port, value)` of an OUT in the WB step (R291). -/
def presentedCommit (nPorts : Nat) (w : MemWb) : Option (Nat × Word) :=
  if isOut w.instr then (portIndex nPorts w.instr.fields.imm).map fun k => (k, w.res) else none

/-- The event `(port, value)` signalled in the cycle of an OUT's WB step (R47). -/
def commitEvent (s : State) : Option (Nat × Word) :=
  if s.running then s.memwb.bind (presentedCommit s.cfg.nPorts) else none

/-- A rising edge of `clk`: with `rst = 1` the reset values whatever the state was, else one step (R49, R350). -/
def clockEdge (rst : Bool) (s : State) : Host.Outcome State Fault Refusal :=
  if rst then .next s.restart else step s

/-! ### Observer -/

/-- The five stage views at the start of a cycle, each the stage's whole contents or empty (R43, R48, D15). -/
structure StageViews where
  fetch : Option Instr
  decode : Option IfId
  execute : Option IdEx
  memory : Option ExMem
  writeBack : Option MemWb
deriving DecidableEq, Repr

/-- IF shows the instruction about to be fetched, even in a cycle that does not fetch it; the others are the latches with all
they hold, the originating index included (R43, R48). -/
def stageViews (s : State) : StageViews where
  fetch := progInstr s.cfg s.pc
  decode := s.ifid
  execute := s.idex
  memory := s.exmem
  writeBack := s.memwb

/-- The source text of the instruction at an index, "for tracing only" (R90). -/
def sourceText (c : Config) (k : InstrIndex) : Option String := c.text[k.toNat]?

/-- Cycles-per-instruction, `cycles / retired`; not defined while nothing has retired (R48, D26). -/
def cyclesPerInstruction (s : State) : Option ℚ :=
  if s.retired = 0 then none else some ((s.cycles : ℚ) / (s.retired : ℚ))

end Sys2Proof.Machine
end

