-- ==== Sys2Proof/Machine/Sequential.lean ====
section
/-! DEFINITION. The derived sequential reading of the nine opcodes, one instruction at a time (43_stage_advance.md R222, D17),
over the same memory and register operations, and the two program patterns on which the pipeline departs from it (R224). It
is a reference to compare with and no part of the machine. -/

namespace Sys2Proof.Machine

/-- What the sequential reading acts on: registers, memory, ports, the output history without cycle numbers, the index of the
next instruction, and how many have been executed. -/
structure SeqState where
  next : InstrIndex
  regs : RegFile
  mem : Memory
  ports : List Word
  out : List (Nat × Word)
  executed : Nat
deriving DecidableEq, Repr

/-- The reset state, seen sequentially (R50). -/
def SeqState.start (c : Config) : SeqState where
  next := 0
  regs := Vector.replicate 16 0
  mem := []
  ports := List.replicate c.nPorts 0
  out := []
  executed := 0

/-- One instruction's sequential effect, before `x[0] <- 0` (R222). -/
def seqEffect (c : Config) (i : Instr) (q : SeqState) : Host.Outcome SeqState Fault Refusal :=
  let x := q.regs
  let after := { q with next := q.next + 1 }
  match i with
  | .add f => .next { after with regs := x.write f.rd (x.read f.ra + x.read f.rb) }
  | .sub f => .next { after with regs := x.write f.rd (x.read f.ra - x.read f.rb) }
  | .set f => .next { after with regs := x.write f.rd f.imm }
  | .load f =>
    andThen (memRead c.memWords q.mem (x.read f.ra + f.imm)) fun v => .next { after with regs := x.write f.rd v }
  | .store f =>
    andThen (memWrite c.memWords q.mem (x.read f.rd + f.imm) (x.read f.ra)) fun m => .next { after with mem := m }
  | .out f =>
    match portIndex c.nPorts f.imm with
    | some k => .next { after with ports := q.ports.set k (x.read f.ra), out := q.out ++ [(k, x.read f.ra)] }
    | none => .refused (.portOutOfRange f.imm)
  | .beq f =>
    .next (if x.read f.ra = x.read f.rb then { q with next := (labelTarget c f.lab).getD (q.next + 1) } else after)
  | .jump f => .next { q with next := (labelTarget c f.lab).getD (q.next + 1) }
  | .nop _ => .next after

/-- `seq_step`: the instruction at `next`, then `x[0] <- 0`; past the end of the program nothing happens (R222). -/
def seqStep (c : Config) (q : SeqState) : Host.Outcome SeqState Fault Refusal :=
  match progInstr c q.next with
  | none => .next q
  | some i =>
    andThen (seqEffect c i q) fun t => .next { t with regs := t.regs.assertZero, executed := q.executed + 1 }

/-- `n` sequential steps. -/
def seqRun (c : Config) : Nat → SeqState → Host.Outcome SeqState Fault Refusal
  | 0, q => .next q
  | n + 1, q => andThen (seqStep c q) (seqRun c n)

/-! ### The two patterns of R224

Both are looked for in the instructions that pass WB, cycle by cycle. That is the order in which they pass EX, with the same
bubbles between them two cycles later, since neither MEM nor WB ever holds an instruction back (R136, R198); and what passes
WB carries its result, a LOAD's word included (log 17). -/

/-- Pattern 1: `Y` writes back to `r`, `X` is ADD, SUB or SET with the same destination, and `I` reads `r`. -/
def doubleProducer (y x i : Instr) : Bool :=
  writesBack y && writesBack x && !isLoad x && y.fields.rd == x.fields.rd && (srcs i).contains x.fields.rd

/-- Pattern 1 stands somewhere in three consecutive cycles, with no bubble between. -/
def hasDoubleProducer : List (Option MemWb) → Bool
  | [] => false
  | y :: l =>
    (match y, l with
      | some y, some x :: some i :: _ => doubleProducer y.instr x.instr i.instr
      | _, _ => false) || hasDoubleProducer l

/-- Pattern 2: `p` writes back a result other than 0 with destination register 0, and `I` reads register 0. -/
def zeroProducer (p : MemWb) (i : Instr) : Bool :=
  writesBack p.instr && p.instr.fields.rd == 0 && p.res != 0 && (srcs i).contains 0

/-- Pattern 2 stands somewhere among the executed instructions, `I` being one of the two that follow `p`. -/
def hasZeroProducer : List MemWb → Bool
  | [] => false
  | p :: l => (l.take 2).any (fun i => zeroProducer p i.instr) || hasZeroProducer l

/-- The run with this trace contains neither pattern; pattern 2 counts only where `FWD_ZERO_REG = forward`. -/
def hazardPatternFree (c : Config) (l : List CycleRecord) : Bool :=
  let passed := l.map CycleRecord.writeBack
  !hasDoubleProducer passed && !(c.fwdZeroReg == .forward && hasZeroProducer (passed.filterMap id))

end Sys2Proof.Machine
end

