-- ==== Sys2Proof/Safety.lean ====
section
/-! DEFINITION. What the statements mean by a safe state and a safe run: the conditions under which no stage stops the cycle,
and the invariant that a run from reset keeps. -/

namespace Sys2Proof.Machine

/-- The access of the LOAD or STORE in the MEM step, if one is there, is misaligned or inside `M`: the premise of R65. -/
def State.accessOk (s : State) : Bool :=
  match s.exmem with
  | none => true
  | some m => !(isLoad m.instr || isStore m.instr) || locate s.cfg.memWords m.alu != .outside

/-- The OUT in the WB step, if one is there, names a port (R109). -/
def State.commitOk (s : State) : Bool :=
  match s.memwb with
  | none => true
  | some w => !isOut w.instr || (portIndex s.cfg.nPorts w.instr.fields.imm).isSome

/-- The word at `pc`, if the program has one there, is an instruction (R100). -/
def State.fetchOk (s : State) : Bool := (progWord s.cfg s.pc).isNone || (progInstr s.cfg s.pc).isSome

/-- No stage stops the cycle that starts from `s`: a condition on the older instructions and on the program, none on the
instruction in the EX step. -/
def State.cycleOk (s : State) : Bool := s.accessOk && s.commitOk && s.fetchOk

/-- The last value the history holds for a port, 0 where it holds none (R26, R27). -/
def lastOutput : List OutCommit → Nat → Word
  | [], _ => 0
  | c :: l, k => if c.port = k ∧ ∀ d ∈ l, d.port ≠ k then c.value else lastOutput l k

/-- What every run from reset keeps at every cycle boundary. -/
structure Inv (s : State) : Prop where
  /-- `x[0] = 0` (R22). -/
  zeroRegister : s.reg 0 = 0
  /-- The memory is in canonical form. -/
  memCanonical : s.mem.wf = true
  /-- Only words of `M[0..MEM_WORDS-1]` are ever written (R28). -/
  memInside : ∀ k, s.cfg.memWords ≤ k → s.mem.read k = 0
  /-- The port array keeps its size (R26). -/
  portCount : s.ports.length = s.cfg.nPorts
  /-- A port holds the last value written to it, 0 if none was (R26). -/
  portsHoldLast : ∀ k, k < s.cfg.nPorts → s.port k = lastOutput s.outLog k
  /-- Every commit is to a port of the array and in a cycle that has been (R27, R109). -/
  historyInside : ∀ c ∈ s.outLog, c.port < s.cfg.nPorts ∧ c.cycle ≤ s.cycles
  /-- The history is in the order of its cycles, at most one commit a cycle (R27). -/
  historyOrdered : s.outLog.Pairwise (fun a b => a.cycle < b.cycle)
  /-- IF/ID holds the program's instruction at its index (R31); so do the other latches, which carry it on (R30). -/
  ifidFromProgram : ∀ d, s.ifid = some d → progInstr s.cfg d.pc = some d.instr
  idexFromProgram : ∀ e, s.idex = some e → progInstr s.cfg e.pc = some e.instr
  exmemFromProgram : ∀ m, s.exmem = some m → progInstr s.cfg m.pc = some m.instr
  memwbFromProgram : ∀ w, s.memwb = some w → progInstr s.cfg w.pc = some w.instr
  /-- No instruction that names a LOAD's destination as a source is in EX while the LOAD is in MEM (R157). -/
  interlock : ∀ m e, s.exmem = some m → s.idex = some e → isLoad m.instr = true → m.instr.fields.rd ∉ srcs e.instr
  /-- Each cycle retires at most one instruction (R323). -/
  retiredLeCycles : s.retired ≤ s.cycles

/-- `s` with the other choice for register 0 on the forwarding paths (R158). -/
def State.withZeroSetting (s : State) (z : FwdZeroReg) : State := { s with cfg := { s.cfg with fwdZeroReg := z } }

/-- An instruction that writes back has another destination than register 0: the premise of R158. -/
def avoidsZero (i : Instr) : Prop := writesBack i = true → i.fields.rd ≠ 0

/-- Neither the program nor a latch holds an instruction that writes back to register 0. -/
structure NoZeroResults (s : State) : Prop where
  program : ∀ w ∈ s.cfg.prog, ∀ i, decode w = .ok i → avoidsZero i
  ifid : ∀ d, s.ifid = some d → avoidsZero d.instr
  idex : ∀ e, s.idex = some e → avoidsZero e.instr
  exmem : ∀ m, s.exmem = some m → avoidsZero m.instr
  memwb : ∀ w, s.memwb = some w → avoidsZero w.instr

/-- How many of the latches behind the EX step are occupied: instructions that have been in EX and have not retired. -/
def State.executedInFlight (s : State) : Nat := (if s.exmem.isSome then 1 else 0) + (if s.memwb.isSome then 1 else 0)

/-- How many of the latches before the EX step are empty: EX slots that will hold no instruction. -/
def State.emptySlots (s : State) : Nat := (if s.ifid.isNone then 1 else 0) + (if s.idex.isNone then 1 else 0)

/-- The EX slots that the cycle from `s` adds and no instruction fills: one for a stall (R136), one for the fetch slot a taken
transfer cancels and one for the instruction it discards, if it does (R179), and one for a fetch past the end (R213). -/
def State.lostSlots (s : State) : Nat :=
  if (takenTarget s).isSome then 1 + (if s.ifid.isSome then 1 else 0)
  else if hazard s then 1
  else if inBounds s.cfg s.pc then 0
  else 1

/-- `e` executes and nothing else is in the pipeline or left to fetch, in a run whose cap leaves room for the three cycles
that the instruction still takes (EX, MEM, WB). -/
structure AloneInEx (s : State) (e : IdEx) : Prop where
  paramsOk : loadProblem s.cfg = none
  idex : s.idex = some e
  ifid : s.ifid = none
  exmem : s.exmem = none
  memwb : s.memwb = none
  drained : inBounds s.cfg s.pc = false
  room : s.cycles + 3 ≤ s.cfg.maxCycles

/-- An instruction with 0 in every field its opcode does not use, as the assembler writes it (R92, D20). -/
def zeroUnused : Instr → Instr
  | .add f => .add { f with lab := 0, imm := 0 }
  | .sub f => .sub { f with lab := 0, imm := 0 }
  | .load f => .load { f with rb := 0, lab := 0 }
  | .store f => .store { f with rb := 0, lab := 0 }
  | .beq f => .beq { f with rd := 0, imm := 0 }
  | .jump f => .jump { f with rd := 0, ra := 0, rb := 0, imm := 0 }
  | .out f => .out { f with rd := 0, rb := 0, lab := 0 }
  | .set f => .set { f with ra := 0, rb := 0, lab := 0 }
  | .nop _ => .nop ⟨0, 0, 0, 0, 0⟩

/-- A program word with 0 in the unused fields; a reserved word as it stands. -/
def zeroUnusedWord (w : InstrWord) : InstrWord :=
  match decode w with
  | .ok i => encode (zeroUnused i)
  | .error _ => w

/-- Two occupants of ID/EX agree but for unused fields and unused operand values (R99). -/
def slotsAgree (e e' : IdEx) : Prop :=
  e'.pc = e.pc ∧ e'.instr = zeroUnused e.instr ∧
    match e.instr with
    | .add _ => e'.va = e.va ∧ e'.vb = e.vb
    | .sub _ => e'.va = e.va ∧ e'.vb = e.vb
    | .beq _ => e'.va = e.va ∧ e'.vb = e.vb
    | .load _ => e'.va = e.va
    | .out _ => e'.va = e.va
    | .store _ => e'.vd = e.vd ∧ e'.va = e.va
    | .jump _ => True
    | .set _ => True
    | .nop _ => True

/-- `s'` is `s` with 0 in every unused field, in the program and in the latches; only unused operand values may differ besides
(R99). -/
structure SameButUnused (s s' : State) : Prop where
  cfg : s'.cfg = { s.cfg with prog := s.cfg.prog.map zeroUnusedWord }
  pc : s'.pc = s.pc
  regs : s'.regs = s.regs
  mem : s'.mem = s.mem
  ports : s'.ports = s.ports
  ifid : s'.ifid = s.ifid.map fun d => { d with instr := zeroUnused d.instr }
  idex : Option.Rel slotsAgree s.idex s'.idex
  exmem : s'.exmem = s.exmem.map fun m => { m with instr := zeroUnused m.instr }
  memwb : s'.memwb = s.memwb.map fun w => { w with instr := zeroUnused w.instr }
  cycles : s'.cycles = s.cycles
  retired : s'.retired = s.retired
  outLog : s'.outLog = s.outLog

end Sys2Proof.Machine
end

