-- ==== Sys2Proof/Certificates/Slice0/Obligations.lean ====
section
/-! DEFINITION. The statements for the provers, from the numbered rules of spec/. Where a statement rests on a choice of the
model and not of the spec, its docstring says so. -/

open Sys2Proof Sys2Proof.Machine

/-! ### Encoding and loading -/

/-- R93: `decode` undoes `encode`, for every instruction with every operand. -/
def Obligations.DecodeOfEncodeIsTheInstruction : Prop :=
  ∀ i : Instr, decode (encode i) = .ok i

/-- R93: `encode` undoes `decode`: a word that is an instruction is the encoding of what it decodes to, so every bit counts. -/
def Obligations.EncodeOfDecodeIsTheWord : Prop :=
  ∀ (w : InstrWord) (i : Instr), decode w = .ok i → encode i = w

/-- R94, R100: the decoder refuses exactly the words whose `iw[63:60]` is 9 to 15, and a run whose image holds one is refused (R312).
That the refusal comes at every step, from a done or capped state as well, is the model's choice (log 9). -/
def Obligations.ReservedOpcodesAreRefused : Prop :=
  (∀ w : InstrWord, (∃ op, decode w = .error (.reservedOpcode op)) ↔ 9 ≤ (w.extractLsb' 60 4).toNat) ∧
  ∀ (s : State) (k : Nat) (w : InstrWord), s.cfg.prog[k]? = some w → 9 ≤ (w.extractLsb' 60 4).toNat →
    ∃ r, step s = .refused r

/-- R92 to R98, 95_test_vectors.md section 2.1: one word of each opcode written out from the layout. -/
def Obligations.SampleWordsDecode : Prop :=
  decode 0x0312000000000000 = .ok (.add ⟨3, 1, 2, 0, 0⟩) ∧
  decode 0x1FED000000000000 = .ok (.sub ⟨15, 14, 13, 0, 0⟩) ∧
  decode 0x2410000000000002 = .ok (.load ⟨4, 1, 0, 0, 2⟩) ∧
  decode 0x31200000FFFFFFFC = .ok (.store ⟨1, 2, 0, 0, -4⟩) ∧
  decode 0x40FEFFFF00000000 = .ok (.beq ⟨0, 15, 14, 65535, 0⟩) ∧
  decode 0x5000000100000000 = .ok (.jump ⟨0, 0, 0, 1, 0⟩) ∧
  decode 0x60F0000000000003 = .ok (.out ⟨0, 15, 0, 0, 3⟩) ∧
  decode 0x7100000080000000 = .ok (.set ⟨1, 0, 0, 0, -2147483648⟩) ∧
  decode 0x8FFFFFFFFFFFFFFF = .ok (.nop ⟨15, 15, 15, 65535, -1⟩)

/-- R319 (2) and (3): under the invariant a step refuses exactly where the parameters are outside the contract: a cap below 1
(R49), a program too long (R8), a size that is 0 (D3, D4), a reserved opcode (R100) or an OUT port outside the array (R109).
That the check is made before every cycle is the model's choice (log 9). -/
def Obligations.ExactlyIllFormedRunsAreRefused : Prop :=
  ∀ s : State, Inv s →
    ((∃ r, step s = .refused r) ↔
      s.cfg.maxCycles < 1 ∨ 2 ^ 32 ≤ s.cfg.prog.length ∨ s.cfg.memWords = 0 ∨ s.cfg.nPorts = 0 ∨
      ∃ (k : Nat) (w : InstrWord), s.cfg.prog[k]? = some w ∧
        (9 ≤ (w.extractLsb' 60 4).toNat ∨
          ∃ f, decode w = .ok (.out f) ∧ ¬ (0 ≤ f.imm.toInt ∧ f.imm.toInt < s.cfg.nPorts)))

/-! ### The step -/

/-- R215 (the model's split into exec and step is log 1): a step that performs a cycle is exec of the instruction in ID/EX,
or the cycle that executes nothing where ID/EX is empty. -/
def Obligations.StepExecutesTheInstructionInIdEx : Prop :=
  ∀ s : State, s.running = true →
    (∀ e, s.idex = some e → step s = exec e.instr s) ∧ (s.idex = none → step s = bubbleCycle s)

/-- R206, R213: the word at `pc` that decodes to `i` is fetched in this cycle, decoded in the next against the register file
of that cycle, and the step after that is exec of `i`, where nothing redirects or stalls in between. -/
def Obligations.FetchedInstructionExecutesTwoCyclesLater : Prop :=
  ∀ (s t u : State) (i : Instr),
    progInstr s.cfg s.pc = some i →
    s.running = true → takenTarget s = none → hazard s = false → step s = .next t →
    t.running = true → takenTarget t = none → hazard t = false → step t = .next u →
    u.running = true →
      t.ifid = some ⟨s.pc, i⟩ ∧ t.pc = s.pc + 1 ∧ u.idex = some (capture u.regs s.pc i) ∧ step u = exec i u

/-- R39, R44: no step changes a parameter of the run. -/
def Obligations.ParametersNeverChange : Prop :=
  ∀ s t : State, step s = .next t → t.cfg = s.cfg

/-- R40, R41: a cycle adds one to `cycles`, which never exceeds the cap, and one to `retired` exactly where MEM/WB is
occupied, whatever the opcode. -/
def Obligations.CountersAdvance : Prop :=
  ∀ s t : State, s.running = true → step s = .next t →
    t.cycles = s.cycles + 1 ∧ t.cycles ≤ s.cfg.maxCycles ∧
    t.retired = s.retired + (if s.memwb.isSome then 1 else 0)

/-- R195: the WB step of every cycle. -/
def Obligations.WriteBackStep : Prop :=
  ∀ s t : State, s.running = true → step s = .next t →
    (s.memwb = none →
      (∀ r, t.reg r = if r = 0 then 0 else s.reg r) ∧ t.ports = s.ports ∧ t.outLog = s.outLog ∧ t.retired = s.retired) ∧
    (∀ w, s.memwb = some w →
      t.retired = s.retired + 1 ∧
      (∀ f, w.instr = .add f ∨ w.instr = .sub f ∨ w.instr = .load f ∨ w.instr = .set f →
        (∀ r, t.reg r = if r = 0 then 0 else if r = f.rd then w.res else s.reg r) ∧
        t.ports = s.ports ∧ t.outLog = s.outLog) ∧
      (∀ f, w.instr = .out f →
        (∀ r, t.reg r = if r = 0 then 0 else s.reg r) ∧
        ∃ k : Nat, f.imm.toInt = k ∧ k < s.cfg.nPorts ∧ t.ports = s.ports.set k w.res ∧
          t.outLog = s.outLog ++ [⟨s.cycles + 1, k, w.res⟩]) ∧
      (∀ f, w.instr = .store f ∨ w.instr = .beq f ∨ w.instr = .jump f ∨ w.instr = .nop f →
        (∀ r, t.reg r = if r = 0 then 0 else s.reg r) ∧ t.ports = s.ports ∧ t.outLog = s.outLog))

/-- R198: the MEM step of every cycle, over the access primitives of R63 and R64. -/
def Obligations.MemoryStep : Prop :=
  ∀ s t : State, s.running = true → step s = .next t →
    (s.exmem = none → t.mem = s.mem ∧ t.memwb = none) ∧
    (∀ m, s.exmem = some m →
      (∀ f, m.instr = .load f →
        t.mem = s.mem ∧
        ∃ v, memRead s.cfg.memWords s.mem m.alu = .next v ∧ t.memwb = some ⟨m.pc, m.instr, v⟩) ∧
      (∀ f, m.instr = .store f →
        memWrite s.cfg.memWords s.mem m.alu m.sv = .next t.mem ∧ t.memwb = some ⟨m.pc, m.instr, m.alu⟩) ∧
      (isLoad m.instr = false → isStore m.instr = false →
        t.mem = s.mem ∧ t.memwb = some ⟨m.pc, m.instr, m.alu⟩))

/-- R62 to R65: what the two access primitives do, by the address. The canonical form of the memory, which is a premise and
which a write keeps, is the model's own (log 7). -/
def Obligations.DataAccessMeaning : Prop :=
  ∀ (n : Nat) (m : Memory) (a v : Word), m.wf = true →
    (a.toNat % 4 ≠ 0 → memRead n m a = .next 0 ∧ memWrite n m a v = .next m) ∧
    (∀ k : Nat, k < n → a.toInt = 4 * (k : Int) →
      memRead n m a = .next (m.read k) ∧
      ∃ m', memWrite n m a v = .next m' ∧ m'.wf = true ∧ ∀ j, m'.read j = if j = k then v else m.read j) ∧
    (a.toNat % 4 = 0 → (a.toInt < 0 ∨ 4 * (n : Int) ≤ a.toInt) →
      memRead n m a = .fault (.memRange a) ∧ memWrite n m a v = .fault (.memRange a))

/-- R205, R206, R207: the ID step of every cycle; the operand values are those the register file holds after the cycle's WB
step, which is how it stands at the cycle's end. -/
def Obligations.DecodeStep : Prop :=
  ∀ s t : State, s.running = true → step s = .next t →
    ((takenTarget s).isSome = true → t.idex = none) ∧
    (s.ifid = none → t.idex = none ∧ stallSignal s = false) ∧
    (∀ d, s.ifid = some d → takenTarget s = none → hazard s = true →
      t.idex = none ∧ t.ifid = s.ifid ∧ stallSignal s = true) ∧
    (∀ d, s.ifid = some d → takenTarget s = none → hazard s = false →
      stallSignal s = false ∧
      t.idex = some ⟨d.pc, d.instr, t.reg d.instr.fields.rd, t.reg d.instr.fields.ra, t.reg d.instr.fields.rb⟩)

/-- R210, R211, R213: the IF step of every cycle, in its order of priority; `pc` does not wrap (R25). -/
def Obligations.FetchStep : Prop :=
  ∀ s t : State, s.running = true → step s = .next t →
    (∀ a, takenTarget s = some a → t.pc = a ∧ t.ifid = none) ∧
    (takenTarget s = none → stallSignal s = true → t.pc = s.pc ∧ t.ifid = s.ifid) ∧
    (takenTarget s = none → stallSignal s = false →
      (s.pc.toNat < s.cfg.prog.length →
        t.pc.toNat = s.pc.toNat + 1 ∧ ∃ i, progInstr s.cfg s.pc = some i ∧ t.ifid = some ⟨s.pc, i⟩) ∧
      (s.cfg.prog.length ≤ s.pc.toNat → t.pc = s.pc ∧ t.ifid = none))

/-! ### Executing an instruction -/

/-- R201: the EX step of each of the nine opcodes, in any context in which no older stage stops the cycle: exec answers a next
state, whose EX/MEM latch holds the opcode's result over the forwarded operands (`alu = 0` and `sv = 0` where no rule reads
them, D10). -/
def Obligations.ExecuteStepOfEveryOpcode : Prop :=
  ∀ (s : State) (e : IdEx) (f : Fields), s.idex = some e → s.cycleOk = true →
    (e.instr = .add f → ∃ t, exec (.add f) s = .next t ∧
      t.exmem = some ⟨e.pc, .add f, (forward s e).fa + (forward s e).fb, 0⟩) ∧
    (e.instr = .sub f → ∃ t, exec (.sub f) s = .next t ∧
      t.exmem = some ⟨e.pc, .sub f, (forward s e).fa - (forward s e).fb, 0⟩) ∧
    (e.instr = .set f → ∃ t, exec (.set f) s = .next t ∧ t.exmem = some ⟨e.pc, .set f, f.imm, 0⟩) ∧
    (e.instr = .load f → ∃ t, exec (.load f) s = .next t ∧
      t.exmem = some ⟨e.pc, .load f, (forward s e).fa + f.imm, 0⟩) ∧
    (e.instr = .store f → ∃ t, exec (.store f) s = .next t ∧
      t.exmem = some ⟨e.pc, .store f, (forward s e).fd + f.imm, (forward s e).fa⟩) ∧
    (e.instr = .out f → ∃ t, exec (.out f) s = .next t ∧ t.exmem = some ⟨e.pc, .out f, (forward s e).fa, 0⟩) ∧
    (e.instr = .beq f → ∃ t, exec (.beq f) s = .next t ∧ t.exmem = some ⟨e.pc, .beq f, 0, 0⟩) ∧
    (e.instr = .jump f → ∃ t, exec (.jump f) s = .next t ∧ t.exmem = some ⟨e.pc, .jump f, 0, 0⟩) ∧
    (e.instr = .nop f → ∃ t, exec (.nop f) s = .next t ∧ t.exmem = some ⟨e.pc, .nop f, 0, 0⟩)

/-- R192: the frame of exec for all nine instructions. In the cycle an instruction executes, a register changes only by the
write-back of the instruction in MEM/WB, a port and the history only by an OUT there, a word of memory only by the STORE in
EX/MEM, at the word its address selects; the executing instruction itself changes EX/MEM, and `pc`, IF/ID and ID/EX. -/
def Obligations.ExecFrame : Prop :=
  ∀ (i : Instr) (s t : State), s.mem.wf = true → exec i s = .next t →
    t.cfg = s.cfg ∧ t.reg 0 = 0 ∧
    (∀ r, r ≠ 0 → (∀ w, s.memwb = some w → writesBack w.instr = true → w.instr.fields.rd ≠ r) → t.reg r = s.reg r) ∧
    (∀ k, (∀ w, s.memwb = some w → isOut w.instr = true → portIndex s.cfg.nPorts w.instr.fields.imm ≠ some k) →
      t.port k = s.port k) ∧
    ((∀ w, s.memwb = some w → isOut w.instr = false) → t.outLog = s.outLog) ∧
    (∀ k, (∀ m, s.exmem = some m → isStore m.instr = true → locate s.cfg.memWords m.alu ≠ .word k) →
      t.mem.read k = s.mem.read k) ∧
    t.cycles = s.cycles + 1 ∧ t.retired = s.retired + (if s.memwb.isSome then 1 else 0)

/-- R230: ADD alone in the pipeline: exec and the two steps after it leave exactly its sequential effect. -/
def Obligations.AddAlone : Prop :=
  ∀ (f : Fields) (s : State) (e : IdEx), AloneInEx s e → e.instr = .add f →
    ∃ t u, exec (.add f) s = .next t ∧ step t = .next u ∧
      step u = .next { s with
        idex := none
        regs := (s.regs.write f.rd (e.va + e.vb)).assertZero
        cycles := s.cycles + 3
        retired := s.retired + 1 }

/-- R231: SUB alone in the pipeline: the first source minus the second. -/
def Obligations.SubAlone : Prop :=
  ∀ (f : Fields) (s : State) (e : IdEx), AloneInEx s e → e.instr = .sub f →
    ∃ t u, exec (.sub f) s = .next t ∧ step t = .next u ∧
      step u = .next { s with
        idex := none
        regs := (s.regs.write f.rd (e.va - e.vb)).assertZero
        cycles := s.cycles + 3
        retired := s.retired + 1 }

/-- R232: SET alone in the pipeline. -/
def Obligations.SetAlone : Prop :=
  ∀ (f : Fields) (s : State) (e : IdEx), AloneInEx s e → e.instr = .set f →
    ∃ t u, exec (.set f) s = .next t ∧ step t = .next u ∧
      step u = .next { s with
        idex := none
        regs := (s.regs.write f.rd f.imm).assertZero
        cycles := s.cycles + 3
        retired := s.retired + 1 }

/-- R250: LOAD alone in the pipeline, from a misaligned address (0) or a word of `M`; from any other address the step after
exec is the range fault of R65. -/
def Obligations.LoadAlone : Prop :=
  ∀ (f : Fields) (s : State) (e : IdEx), AloneInEx s e → e.instr = .load f →
    (∀ v, (locate s.cfg.memWords (e.va + f.imm) = .misaligned ∧ v = 0) ∨
        (∃ k, locate s.cfg.memWords (e.va + f.imm) = .word k ∧ v = s.mem.read k) →
      ∃ t u, exec (.load f) s = .next t ∧ step t = .next u ∧
        step u = .next { s with
          idex := none
          regs := (s.regs.write f.rd v).assertZero
          cycles := s.cycles + 3
          retired := s.retired + 1 }) ∧
    (locate s.cfg.memWords (e.va + f.imm) = .outside →
      ∃ t, exec (.load f) s = .next t ∧ step t = .fault (.memRange (e.va + f.imm)))

/-- R255: STORE alone in the pipeline: the word its address selects takes the value, a misaligned address drops it; no register
and no port changes; from any other address the step after exec is the range fault of R65. -/
def Obligations.StoreAlone : Prop :=
  ∀ (f : Fields) (s : State) (e : IdEx), AloneInEx s e → e.instr = .store f →
    (∀ m', (locate s.cfg.memWords (e.vd + f.imm) = .misaligned ∧ m' = s.mem) ∨
        (∃ k, locate s.cfg.memWords (e.vd + f.imm) = .word k ∧ m' = s.mem.write k e.va) →
      ∃ t u, exec (.store f) s = .next t ∧ step t = .next u ∧
        step u = .next { s with
          idex := none
          regs := s.regs.assertZero
          mem := m'
          cycles := s.cycles + 3
          retired := s.retired + 1 }) ∧
    (locate s.cfg.memWords (e.vd + f.imm) = .outside →
      ∃ t, exec (.store f) s = .next t ∧ step t = .fault (.memRange (e.vd + f.imm)))

/-- R270: BEQ alone in the pipeline, where nothing is left to fetch at the index it continues at: `pc` becomes the target if
the values are equal and the label is found, and nothing else changes. -/
def Obligations.BeqAlone : Prop :=
  ∀ (f : Fields) (s : State) (e : IdEx) (next : InstrIndex), AloneInEx s e → e.instr = .beq f →
    next = (if e.va = e.vb then (labelTarget s.cfg f.lab).getD s.pc else s.pc) → inBounds s.cfg next = false →
    ∃ t u, exec (.beq f) s = .next t ∧ step t = .next u ∧
      step u = .next { s with
        idex := none
        pc := next
        regs := s.regs.assertZero
        cycles := s.cycles + 3
        retired := s.retired + 1 }

/-- R271: JUMP alone in the pipeline, where nothing is left to fetch at the index it continues at. -/
def Obligations.JumpAlone : Prop :=
  ∀ (f : Fields) (s : State) (e : IdEx) (next : InstrIndex), AloneInEx s e → e.instr = .jump f →
    next = (labelTarget s.cfg f.lab).getD s.pc → inBounds s.cfg next = false →
    ∃ t u, exec (.jump f) s = .next t ∧ step t = .next u ∧
      step u = .next { s with
        idex := none
        pc := next
        regs := s.regs.assertZero
        cycles := s.cycles + 3
        retired := s.retired + 1 }

/-- R290, R291: OUT alone in the pipeline: the port takes the value, and the commit carries the number of the WB cycle. -/
def Obligations.OutAlone : Prop :=
  ∀ (f : Fields) (s : State) (e : IdEx) (k : Nat), AloneInEx s e → e.instr = .out f →
    f.imm.toInt = k → k < s.cfg.nPorts →
    ∃ t u, exec (.out f) s = .next t ∧ step t = .next u ∧
      step u = .next { s with
        idex := none
        regs := s.regs.assertZero
        ports := s.ports.set k e.va
        outLog := s.outLog ++ [⟨s.cycles + 3, k, e.va⟩]
        cycles := s.cycles + 3
        retired := s.retired + 1 }

/-- R295: NOP alone in the pipeline changes nothing and is counted. -/
def Obligations.NopAlone : Prop :=
  ∀ (f : Fields) (s : State) (e : IdEx), AloneInEx s e → e.instr = .nop f →
    ∃ t u, exec (.nop f) s = .next t ∧ step t = .next u ∧
      step u = .next { s with
        idex := none
        regs := s.regs.assertZero
        cycles := s.cycles + 3
        retired := s.retired + 1 }

/-- R230 to R232, R250: in any context in which three steps perform their cycles, the result an ADD, SUB, SET or LOAD has in
the EX step reaches its destination register two cycles later, register 0 excepted, and no other register changes in that
cycle. A LOAD's result is what its MEM step reads from the memory of the cycle between. -/
def Obligations.ResultReachesDestination : Prop :=
  ∀ (s t u v : State) (e : IdEx), s.idex = some e →
    s.running = true → step s = .next t → t.running = true → step t = .next u → u.running = true → step u = .next v →
    (∀ f x, (e.instr = .add f ∧ x = (forward s e).fa + (forward s e).fb) ∨
        (e.instr = .sub f ∧ x = (forward s e).fa - (forward s e).fb) ∨ (e.instr = .set f ∧ x = f.imm) ∨
        (e.instr = .load f ∧ memRead s.cfg.memWords t.mem ((forward s e).fa + f.imm) = .next x) →
      ∀ r, v.reg r = if r = 0 then 0 else if r = f.rd then x else u.reg r)

/-! ### Hazard detection -/

/-- R136: the cycle of a load-use hazard: a bubble into ID/EX, IF/ID held, no fetch, and the LOAD goes on to the MEM step with
its address. -/
def Obligations.LoadUseStalls : Prop :=
  ∀ (s t : State) (e : IdEx) (d : IfId) (f : Fields), s.running = true → s.idex = some e → s.ifid = some d →
    e.instr = .load f → f.rd ∈ srcs d.instr → step s = .next t →
    t.idex = none ∧ t.ifid = s.ifid ∧ t.pc = s.pc ∧ t.exmem = some ⟨e.pc, e.instr, (forward s e).fa + f.imm, 0⟩

/-- R133, R140: nothing else stalls: where IF/ID is held, ID/EX is a LOAD whose destination is one of the register fields that
the opcode in IF/ID reads, field by field. -/
def Obligations.OnlyLoadUseStalls : Prop :=
  ∀ s : State, stallSignal s = true →
    ∃ e d f, s.idex = some e ∧ s.ifid = some d ∧ e.instr = .load f ∧
      ((∃ g, (d.instr = .add g ∨ d.instr = .sub g ∨ d.instr = .beq g) ∧ (g.ra = f.rd ∨ g.rb = f.rd)) ∨
       (∃ g, (d.instr = .load g ∨ d.instr = .out g) ∧ g.ra = f.rd) ∨
       (∃ g, d.instr = .store g ∧ (g.ra = f.rd ∨ g.rd = f.rd)))

/-- R134, R138: a hazard and a taken transfer never arise in one cycle, and no hazard is detected in the cycle after one. -/
def Obligations.NoHazardTwiceRunning : Prop :=
  ∀ s : State, hazard s = true →
    takenTarget s = none ∧ ∀ t, s.running = true → step s = .next t → hazard t = false

/-- R142, R259: a LOAD and, directly behind it, an instruction that reads its destination: exactly one stall, and when the
consumer is in the EX step it receives the word the LOAD has read, in every field that names the destination. -/
def Obligations.LoadUseConsumerGetsTheLoadedWord : Prop :=
  ∀ (s t u : State) (e : IdEx) (d : IfId) (f : Fields),
    s.running = true → s.idex = some e → s.ifid = some d → e.instr = .load f → f.rd ∈ srcs d.instr →
    (s.cfg.fwdZeroReg = .forward ∨ f.rd ≠ 0) →
    step s = .next t → t.running = true → step t = .next u →
    stallSignal s = true ∧ stallSignal t = false ∧
    ∃ c v, u.idex = some c ∧ c.pc = d.pc ∧ c.instr = d.instr ∧
      memRead t.cfg.memWords t.mem ((forward s e).fa + f.imm) = .next v ∧
      (d.instr.fields.rd = f.rd → (forward u c).fd = v) ∧
      (d.instr.fields.ra = f.rd → (forward u c).fa = v) ∧
      (d.instr.fields.rb = f.rd → (forward u c).fb = v)

/-! ### Forwarding -/

/-- R151 to R156, R158: what each of the three operands is: the result of a producer in MEM/WB, else that of a producer in
EX/MEM that is not a LOAD, else the captured value; register 0 is no exception unless `FWD_ZERO_REG = suppress`. -/
def Obligations.ForwardingPriority : Prop :=
  ∀ (s : State) (e : IdEx) (r : RegIndex) (captured got : Word),
    (r = e.instr.fields.rd ∧ captured = e.vd ∧ got = (forward s e).fd) ∨
    (r = e.instr.fields.ra ∧ captured = e.va ∧ got = (forward s e).fa) ∨
    (r = e.instr.fields.rb ∧ captured = e.vb ∧ got = (forward s e).fb) →
    (∀ w, s.memwb = some w → writesBack w.instr = true → w.instr.fields.rd = r →
      (s.cfg.fwdZeroReg = .forward ∨ r ≠ 0) → got = w.res) ∧
    ((∀ w, s.memwb = some w → writesBack w.instr = true → w.instr.fields.rd = r →
        s.cfg.fwdZeroReg = .suppress ∧ r = 0) →
      (∀ m, s.exmem = some m → writesBack m.instr = true → isLoad m.instr = false → m.instr.fields.rd = r →
        (s.cfg.fwdZeroReg = .forward ∨ r ≠ 0) → got = m.alu) ∧
      ((∀ m, s.exmem = some m → writesBack m.instr = true → isLoad m.instr = false → m.instr.fields.rd = r →
        s.cfg.fwdZeroReg = .suppress ∧ r = 0) → got = captured))

/-- R163, R234: an instruction directly behind an ADD that reads its sum does so without a stall, unless the register is also
written by the instruction ahead of the ADD (the pattern of R156). -/
def Obligations.BackToBackSumIsForwarded : Prop :=
  ∀ (s t : State) (e : IdEx) (d : IfId) (f g : Fields),
    s.running = true → s.idex = some e → e.instr = .add f → s.ifid = some d → d.instr = .add g →
    g.ra = f.rd → g.rb ≠ f.rd → (s.cfg.fwdZeroReg = .forward ∨ f.rd ≠ 0) →
    (∀ m, s.exmem = some m → writesBack m.instr = false) → step s = .next t →
    stallSignal s = false ∧
    ∃ c, t.idex = some c ∧ c.instr = .add g ∧
      (forward t c).fa = (forward s e).fa + (forward s e).fb ∧ (forward t c).fb = t.reg g.rb

/-- R158: a run of a program in which no instruction that writes back has destination register 0 is the same under both
settings of `FWD_ZERO_REG`. -/
def Obligations.ZeroRegisterSettingsAgree : Prop :=
  ∀ (c : Config) (n : Nat) (s : State),
    (∀ w ∈ c.prog, ∀ i, decode w = .ok i → writesBack i = true → i.fields.rd ≠ 0) →
    Host.Core.run core n (State.resetWith { c with fwdZeroReg := .forward }) = .next s →
    Host.Core.run core n (State.resetWith { c with fwdZeroReg := .suppress }) =
      .next { s with cfg := { s.cfg with fwdZeroReg := .suppress } }

/-- R158, as a relation that every step keeps: in a state whose program and latches hold no result for register 0, a step is the
same under either setting of `FWD_ZERO_REG`, and its next state is such a state again. -/
def Obligations.StepCommutesWithZeroSetting : Prop :=
  ∀ (s : State) (z : FwdZeroReg), NoZeroResults s →
    (∀ t, step s = .next t → NoZeroResults t ∧ step (s.withZeroSetting z) = .next (t.withZeroSetting z)) ∧
    (∀ r, step s = .fault r → step (s.withZeroSetting z) = .fault r) ∧
    (∀ r, step s = .refused r → step (s.withZeroSetting z) = .refused r)

/-! ### Transfers -/

/-- R171: for every opcode but BEQ and JUMP, and where ID/EX is empty, nothing is taken: `pc` stays or moves on by one. -/
def Obligations.OnlyTransfersRedirect : Prop :=
  ∀ s : State, (∀ e f, s.idex = some e → e.instr ≠ .beq f ∧ e.instr ≠ .jump f) →
    takenTarget s = none ∧ ∀ t, step s = .next t → t.pc = s.pc ∨ t.pc = s.pc + 1

/-- R172, R177, R178: BEQ is taken exactly where the forwarded values are equal and the label is found; then, in any context in
which no older stage stops the cycle, `pc` is the target and IF/ID and ID/EX are empty. -/
def Obligations.BeqResolves : Prop :=
  ∀ (s : State) (e : IdEx) (f : Fields), s.idex = some e → e.instr = .beq f →
    (takenTarget s = if (forward s e).fa = (forward s e).fb then labelTarget s.cfg f.lab else none) ∧
    ∀ a, s.cycleOk = true → (forward s e).fa = (forward s e).fb → labelTarget s.cfg f.lab = some a →
      ∃ t, exec (.beq f) s = .next t ∧ t.pc = a ∧ t.ifid = none ∧ t.idex = none ∧
        t.exmem = some ⟨e.pc, .beq f, 0, 0⟩

/-- R174, R177, R178: JUMP is taken exactly where the label is found; its cycle then ends as that of a taken BEQ. -/
def Obligations.JumpResolves : Prop :=
  ∀ (s : State) (e : IdEx) (f : Fields), s.idex = some e → e.instr = .jump f →
    takenTarget s = labelTarget s.cfg f.lab ∧
    ∀ a, s.cycleOk = true → labelTarget s.cfg f.lab = some a →
      ∃ t, exec (.jump f) s = .next t ∧ t.pc = a ∧ t.ifid = none ∧ t.idex = none ∧
        t.exmem = some ⟨e.pc, .jump f, 0, 0⟩

/-- R173, R181: a transfer that is not taken lets the front of the pipeline go on as behind a NOP: its cycle leaves the same
`pc`, IF/ID and ID/EX as a NOP's in its place. -/
def Obligations.UntakenTransferActsAsNop : Prop :=
  ∀ (s t t' : State) (e : IdEx) (f : Fields), s.idex = some e → e.instr = .beq f ∨ e.instr = .jump f →
    takenTarget s = none → exec e.instr s = .next t →
    exec (.nop f) { s with idex := some { e with instr := .nop f } } = .next t' →
    t.pc = t'.pc ∧ t.ifid = t'.ifid ∧ t.idex = t'.idex ∧ t.memwb = t'.memwb ∧ t.regs = t'.regs ∧ t.mem = t'.mem ∧
      t.ports = t'.ports ∧ t.outLog = t'.outLog ∧ t.retired = t'.retired

/-- R179, R182: behind a taken transfer the EX step is empty in the next two cycles, and the instruction at the target, if the
program has one there, is in IF/ID after one of them and in ID/EX after the other; past the end nothing is fetched. -/
def Obligations.TakenTransferLeavesTwoBubbles : Prop :=
  ∀ (s t u v : State) (a : InstrIndex), takenTarget s = some a →
    s.running = true → step s = .next t → t.running = true → step t = .next u → u.running = true → step u = .next v →
    t.idex = none ∧ t.ifid = none ∧ t.pc = a ∧ u.idex = none ∧
    (∀ i, progInstr s.cfg a = some i →
      u.ifid = some ⟨a, i⟩ ∧ ∃ e, v.idex = some e ∧ e.pc = a ∧ e.instr = i) ∧
    (inBounds s.cfg a = false → u.pc = a ∧ u.ifid = none ∧ v.idex = none)

/-! ### Memory and output -/

/-- R71, R72: a LOAD directly behind a STORE to the same word reads the stored value, without a stall. -/
def Obligations.LoadBehindStoreReadsTheStoredWord : Prop :=
  ∀ (s t u : State) (m : ExMem) (e : IdEx) (f g : Fields) (k : Nat),
    s.mem.wf = true → s.exmem = some m → m.instr = .store g → s.idex = some e → e.instr = .load f →
    (forward s e).fa + f.imm = m.alu → locate s.cfg.memWords m.alu = .word k →
    s.running = true → step s = .next t → t.running = true → step t = .next u →
    t.mem.read k = m.sv ∧ u.memwb = some ⟨e.pc, .load f, m.sv⟩

/-- R65: under the invariant, a running machine faults exactly where a LOAD or STORE in the MEM step has an aligned address
that lies outside `0 .. 4*MEM_WORDS - 4`, and the fault names the address. -/
def Obligations.RangeFaultExactly : Prop :=
  ∀ (s : State) (a : Word), Inv s → s.running = true →
    (step s = .fault (.memRange a) ↔
      ∃ m f, s.exmem = some m ∧ (m.instr = .load f ∨ m.instr = .store f) ∧ m.alu = a ∧ a.toNat % 4 = 0 ∧
        (a.toInt < 0 ∨ 4 * (s.cfg.memWords : Int) ≤ a.toInt))

/-- R27, R47: the history grows by exactly the commit event the cycle signals, under the cycle's number; a state that holds
signals none, whatever its MEM/WB latch (R49). -/
def Obligations.CommitEventsMakeTheHistory : Prop :=
  ∀ s t : State, step s = .next t →
    t.outLog = s.outLog ++ (commitEvent s).toList.map fun p => ⟨s.cycles + 1, p.1, p.2⟩

/-- R46: what the data port shows is what the cycle does to memory: a read is answered with the word it selects, a write access
stores its word, and where there is no write access, in a state that holds as well (R49), no word changes. -/
def Obligations.DataPortShowsTheAccess : Prop :=
  ∀ s t : State, s.mem.wf = true → step s = .next t →
    (∀ a, dataPort s = some (.read a) → ∃ (m : ExMem) (k : Nat), s.exmem = some m ∧ m.alu = a ∧ a.toInt = 4 * (k : Int) ∧
      k < s.cfg.memWords ∧ dataAnswer s = some (s.mem.read k) ∧ t.memwb = some ⟨m.pc, m.instr, s.mem.read k⟩) ∧
    (∀ a v, dataPort s = some (.write a v) → ∃ k : Nat, a.toInt = 4 * (k : Int) ∧ k < s.cfg.memWords ∧
      ∀ j, t.mem.read j = if j = k then v else s.mem.read j) ∧
    ((∀ a v, dataPort s ≠ some (.write a v)) → t.mem = s.mem)

/-! ### Reset, runs and their end -/

/-- R50, R350: a clock edge with `rst = 1` puts every piece of state to its reset value, whatever it was. -/
def Obligations.ResetPutsEveryPiece : Prop :=
  ∀ s : State, ∃ t, clockEdge true s = .next t ∧ t.cfg = s.cfg ∧
    (∀ i, t.reg i = 0) ∧ (∀ k, t.mem.read k = 0) ∧ t.ports.length = s.cfg.nPorts ∧ (∀ k, t.port k = 0) ∧
    t.ifid = none ∧ t.idex = none ∧ t.exmem = none ∧ t.memwb = none ∧ t.pc = 0 ∧ t.cycles = 0 ∧ t.retired = 0 ∧
    t.outLog = []

/-- The invariant holds after reset, with any parameters. -/
def Obligations.ResetSatisfiesInvariant : Prop :=
  Inv State.reset ∧ ∀ c : Config, Inv (State.resetWith c)

/-- Every step keeps the invariant: the zero register (R22), the canonical memory inside the array (R28), ports that hold the
last value of an ordered history (R26, R27), latches that hold the program's instructions (R31), the load-use interlock
(R157) and `retired <= cycles` (R323). -/
def Obligations.EveryStepKeepsTheInvariant : Prop :=
  ∀ s t : State, Inv s → step s = .next t → Inv t

/-- R319, R353: a run whose parameters are within the contract never refuses, and stops only by the range fault of R65. -/
def Obligations.WellFormedRunsStopOnlyByRangeFault : Prop :=
  ∀ (c : Config) (n : Nat), loadProblem c = none →
    (∃ s, Host.Core.run core n (State.resetWith c) = .next s ∧ Inv s) ∨
    ∃ a, Host.Core.run core n (State.resetWith c) = .fault (.memRange a)

/-- R352: the first instruction after reset is in IF/ID, ID/EX, EX/MEM and MEM/WB at the ends of cycles 1 to 4 and retires in
cycle 5. -/
def Obligations.FirstInstructionRetiresInCycleFive : Prop :=
  ∀ (c : Config) (i : Instr) (s1 s2 s3 s4 s5 : State), progInstr c 0 = some i → 5 ≤ c.maxCycles →
    step (State.resetWith c) = .next s1 → step s1 = .next s2 → step s2 = .next s3 → step s3 = .next s4 →
    step s4 = .next s5 →
    s1.ifid = some ⟨0, i⟩ ∧ s1.pc = 1 ∧ s2.idex = some ⟨0, i, 0, 0, 0⟩ ∧
    (∃ m, s3.exmem = some m ∧ m.pc = 0 ∧ m.instr = i) ∧
    (∃ w, s4.memwb = some w ∧ w.pc = 0 ∧ w.instr = i) ∧ s4.retired = 0 ∧ s5.retired = 1 ∧ s5.cycles = 5

/-- R219: the empty program is done at reset: zero cycles, and no cycles-per-instruction. -/
def Obligations.EmptyProgramRunsZeroCycles : Prop :=
  ∀ c : Config, c.prog = [] → loadProblem c = none →
    drive (State.resetWith c) = .next (State.resetWith c, some .naturalCompletion) ∧
    (State.resetWith c).cycles = 0 ∧ (State.resetWith c).retired = 0 ∧
    cyclesPerInstruction (State.resetWith c) = none

/-- R216 to R218: the driver's report is natural completion where the final state is done, also exactly at the cap, and
forced stop where it is not done and the cap is reached; either way the state then holds. -/
def Obligations.DriverReportsHowTheRunEnded : Prop :=
  ∀ (s t : State) (r : Option Termination), s.cycles ≤ s.cfg.maxCycles → drive s = .next (t, r) →
    ((r = some .naturalCompletion ∧ t.done = true) ∨
      (r = some .forcedStop ∧ t.done = false ∧ t.cycles = t.cfg.maxCycles)) ∧
    t.cycles ≤ t.cfg.maxCycles ∧ step t = .next t

/-- The step of R319 and R353 (the check itself: log 9): from every state with the invariant and accepted parameters, a step
keeps the invariant or is the range fault of R65. -/
def Obligations.AcceptedStepKeepsInvariantOrRangeFaults : Prop :=
  ∀ s : State, Inv s → loadProblem s.cfg = none →
    (∃ t, step s = .next t ∧ Inv t) ∨ ∃ a, step s = .fault (.memRange a)

/-- R143, R179, R370: the account of one cycle. An EX slot holds an instruction that retires two cycles later, or is one of the
slots lost to a stall, to a taken transfer or to the end of the program; nothing else lengthens a run. -/
def Obligations.EveryCycleIsAccountedFor : Prop :=
  ∀ s t : State, s.running = true → step s = .next t →
    t.cycles + t.emptySlots + (s.retired + s.executedInFlight) =
      s.cycles + s.emptySlots + (t.retired + t.executedInFlight) + s.lostSlots

/-- R370: the cycle count of every run from reset that ends by natural completion. -/
def Obligations.CycleCountOfACompletedRun : Prop :=
  ∀ (c : Config) (n : Nat) (s : State), c.prog ≠ [] →
    Host.Core.run core n (State.resetWith c) = .next s → s.done = true →
    s.cycles = s.retired + 4 + stallCount (cycleTrace n (State.resetWith c)) +
      2 * takenBeforeLast (cycleTrace n (State.resetWith c))

/-- R224: a run from reset that ends by natural completion, and in whose EX step neither of the two patterns appears, ends with
the registers, memory, ports and outputs of the sequential reading R222, and has retired as many instructions as that
executes. How the two patterns are read off the run's trace, and where the sequential reading stops, is log 17. -/
def Obligations.PipelineMatchesTheSequentialReading : Prop :=
  ∀ (c : Config) (n : Nat) (s : State),
    Host.Core.run core n (State.resetWith c) = .next s → s.done = true →
    hazardPatternFree c (cycleTrace n (State.resetWith c)) = true →
    ∃ q, seqRun c s.retired (SeqState.start c) = .next q ∧ q.executed = s.retired ∧ inBounds c q.next = false ∧
      q.regs = s.regs ∧ q.mem = s.mem ∧ q.ports = s.ports ∧ q.out = s.outLog.map fun o => (o.port, o.value)

/-- R99: what stands in the fields an opcode does not use changes no register, memory word, port, counter or `pc`, in any
number of steps from reset. -/
def Obligations.UnusedFieldsChangeNothing : Prop :=
  ∀ (c : Config) (n : Nat) (s : State),
    Host.Core.run core n (State.resetWith c) = .next s →
    ∃ s', Host.Core.run core n (State.resetWith { c with prog := c.prog.map zeroUnusedWord }) = .next s' ∧
      s'.pc = s.pc ∧ s'.regs = s.regs ∧ s'.mem = s.mem ∧ s'.ports = s.ports ∧ s'.cycles = s.cycles ∧
      s'.retired = s.retired ∧ s'.outLog = s.outLog

/-- R99, as a relation that every step keeps: two states that differ only in unused fields and unused operand values step
alike, and to two such states again. -/
def Obligations.StepIgnoresUnusedFields : Prop :=
  ∀ s s' : State, SameButUnused s s' →
    (∀ t, step s = .next t → ∃ t', step s' = .next t' ∧ SameButUnused t t') ∧
    (∀ r, step s = .fault r → step s' = .fault r) ∧
    (∀ r, step s = .refused r → step s' = .refused r)
end

