-- ==== Sys2Proof/Laws/Encoding.lean ====
section
/-! SUPPORT. The encoding as a number, and its opcode field (30_encoding.md R93, R94). -/

namespace Sys2Proof

/-- The concatenation of R93, read as a number. -/
theorem word_toNat (op rd ra rb : BitVec 4) (lab : Label) (imm : Word) :
    (op ++ rd ++ ra ++ rb ++ lab ++ imm).toNat =
      op.toNat * 2 ^ 60 + rd.toNat * 2 ^ 56 + ra.toNat * 2 ^ 52 + rb.toNat * 2 ^ 48 + lab.toNat * 2 ^ 32 + imm.toNat := by
  simp only [BitVec.toNat_append]
  rw [← Nat.shiftLeft_add_eq_or_of_lt rd.isLt, ← Nat.shiftLeft_add_eq_or_of_lt ra.isLt,
    ← Nat.shiftLeft_add_eq_or_of_lt rb.isLt, ← Nat.shiftLeft_add_eq_or_of_lt lab.isLt,
    ← Nat.shiftLeft_add_eq_or_of_lt imm.isLt]
  simp only [Nat.shiftLeft_eq]
  omega

/-- The top four bits of an encoded instruction are its opcode number. -/
theorem encode_opcode (i : Instr) : (encode i).extractLsb' 60 4 = i.opcode := by
  apply BitVec.eq_of_toNat_eq
  rw [BitVec.extractLsb'_toNat, encode, word_toNat, Nat.shiftRight_eq_div_pow]
  have := i.opcode.isLt
  have := i.fields.rd.isLt
  have := i.fields.ra.isLt
  have := i.fields.rb.isLt
  have := i.fields.lab.isLt
  have := i.fields.imm.isLt
  omega

/-- All the decoder can do with a word: nine numbers select the opcode, over the one field layout; the rest are refused. -/
theorem decode_eq_ok {w : InstrWord} {i : Instr} (h : decode w = .ok i) :
    w.extractLsb' 60 4 = i.opcode ∧ i.fields = decodeFields w := by
  unfold decode at h
  split at h <;> first
    | cases h; exact ⟨BitVec.eq_of_toNat_eq ‹_›, rfl⟩
    | cases h

end Sys2Proof
end

