-- ==== Sys2Proof/Laws/Load.lean ====
section
/-! SUPPORT. What the checks made before a run say once they find nothing: what a running machine may rely on. -/

namespace Sys2Proof.Machine

/-- Every word of an accepted image is a well-formed instruction. -/
theorem imageProblem_none {n k : Nat} {l : List InstrWord} (h : imageProblem n k l = none) :
    ∀ w ∈ l, ∃ i, decode w = .ok i ∧ i.wellFormed n = true := by
  induction l generalizing k with
  | nil => simp
  | cons w l ih =>
    unfold imageProblem at h
    split at h
    · cases h
    · rename_i i hi
      split at h
      · intro v hv
        rcases List.mem_cons.mp hv with rfl | hv
        · exact ⟨i, hi, ‹_›⟩
        · exact ih h v hv
      · cases h

/-- Accepted parameters: positive sizes and cap, a program that fits, an accepted image (R319, R353). -/
theorem loadProblem_none {c : Config} (h : loadProblem c = none) :
    1 ≤ c.memWords ∧ 1 ≤ c.nPorts ∧ 1 ≤ c.maxCycles ∧ c.prog.length < 2 ^ 32 ∧ imageProblem c.nPorts 0 c.prog = none := by
  unfold loadProblem at h
  split at h
  · cases h
  · split at h
    · cases h
    · split at h
      · cases h
      · rename_i h1 h2 h3
        simp only [Config.sizesOk, Config.capOk, Config.lengthOk, Bool.not_eq_true', decide_eq_false_iff_not, not_not] at h1 h2 h3
        exact ⟨h1.1, h1.2, h2, h3, h⟩

/-- An instruction of an accepted program is well-formed. -/
theorem progInstr_wellFormed {c : Config} (h : loadProblem c = none) {k : InstrIndex} {i : Instr}
    (hi : progInstr c k = some i) : i.wellFormed c.nPorts = true := by
  unfold progInstr progWord at hi
  split at hi
  · cases hi
  · rename_i w hw
    obtain ⟨j, hj, hwf⟩ := imageProblem_none (loadProblem_none h).2.2.2.2 w (List.mem_of_getElem? hw)
    rw [hj] at hi
    cases hi
    exact hwf

/-- The port index of R97 and R109: the immediate, where it lies in the array. -/
theorem portIndex_eq_some {n k : Nat} {imm : Word} : portIndex n imm = some k ↔ imm.toInt = k ∧ k < n := by
  unfold portIndex
  split
  · simp only [Option.some.injEq]; omega
  · simp only [reduceCtorEq, false_iff]; omega

/-- Past the end of the program nothing is fetched, and `pc` stays (R213). -/
theorem fetch_past_end {c : Config} {pc : InstrIndex} (h : inBounds c pc = false) : fetch c pc = .next (none, pc) := by
  have : progWord c pc = none := by
    rw [progWord, List.getElem?_eq_none_iff]
    simpa [inBounds] using h
  simp [fetch, this]

end Sys2Proof.Machine
end

