-- ==== Sys2Proof/Laws/Memory.lean ====
section
/-! SUPPORT. The laws of data memory: read after write, and that every memory operation keeps the canonical form. -/

namespace Sys2Proof.Machine

theorem wfAbove_mono {lo hi : Option Nat} {m : Memory} (h : Memory.wfAbove hi m = true)
    (hlo : ∀ a, lo = some a → ∃ b, hi = some b ∧ a ≤ b) : Memory.wfAbove lo m = true := by
  cases m with
  | nil => simp [Memory.wfAbove]
  | cons c m =>
    obtain ⟨j, w⟩ := c
    simp only [Memory.wfAbove, Bool.and_eq_true] at h ⊢
    refine ⟨⟨?_, h.1.2⟩, h.2⟩
    cases lo with
    | none => rfl
    | some a =>
      obtain ⟨b, rfl, hab⟩ := hlo a rfl
      have := h.1.1
      simp at this ⊢
      omega

/-- A cell put before cells that all lie above it keeps the form. -/
theorem cons_wfAbove {lo : Option Nat} {k : Nat} {v : Word} {m : Memory} (hk : lo.all (· < k) = true)
    (h : Memory.wfAbove (some k) m = true) : Memory.wfAbove lo (Memory.cons k v m) = true := by
  unfold Memory.cons
  split
  · refine wfAbove_mono h fun a ha => ⟨k, rfl, ?_⟩
    subst ha; simp at hk; omega
  · simp_all [Memory.wfAbove]

/-- A write keeps the canonical form, above any bound that its index lies above. -/
theorem write_wfAbove {lo : Option Nat} {m : Memory} {k : Nat} {v : Word} (hk : lo.all (· < k) = true)
    (h : Memory.wfAbove lo m = true) : Memory.wfAbove lo (m.write k v) = true := by
  induction m generalizing lo with
  | nil => exact cons_wfAbove hk (by simp [Memory.wfAbove])
  | cons c m ih =>
    obtain ⟨j, w⟩ := c
    simp only [Memory.wfAbove, Bool.and_eq_true] at h
    simp only [Memory.write]
    split
    · refine cons_wfAbove hk ?_
      simp_all [Memory.wfAbove]
    · split
      · subst_vars; exact cons_wfAbove hk h.2
      · have hjk : (some j).all (· < k) = true := by simp; omega
        simp only [Memory.wfAbove, Bool.and_eq_true]
        exact ⟨h.1, ih hjk h.2⟩

/-- Every write keeps the canonical form. -/
theorem write_wf {m : Memory} (k : Nat) (v : Word) (h : m.wf = true) : (m.write k v).wf = true :=
  write_wfAbove (by simp) h

/-- The empty memory, that of reset, is canonical. -/
theorem empty_wf : Memory.wf [] = true := rfl

/-- Cells above a bound hold nothing at or below it. -/
theorem read_below {m : Memory} {lo k : Nat} (h : Memory.wfAbove (some lo) m = true) (hk : k ≤ lo) : m.read k = 0 := by
  induction m generalizing lo with
  | nil => rfl
  | cons c m ih =>
    obtain ⟨j, w⟩ := c
    simp only [Memory.wfAbove, Bool.and_eq_true] at h
    have hj : lo < j := by have := h.1.1; simpa using this
    simp only [Memory.read]
    rw [if_neg (by omega)]
    exact ih h.2 (by omega)

theorem read_cons {m : Memory} {j k : Nat} {v : Word} (h : Memory.wfAbove (some j) m = true) :
    (Memory.cons j v m).read k = if k = j then v else m.read k := by
  unfold Memory.cons
  split
  · rename_i hv
    split
    · subst_vars; exact read_below h (Nat.le_refl _)
    · rfl
  · simp only [Memory.read]
    by_cases hk : j = k
    · simp [hk]
    · simp [hk, Ne.symm hk]

theorem read_write_above {lo : Option Nat} {m : Memory} (h : Memory.wfAbove lo m = true) (k j : Nat) (v : Word) :
    (m.write k v).read j = if j = k then v else m.read j := by
  induction m generalizing lo with
  | nil => exact read_cons (by simp [Memory.wfAbove])
  | cons c m ih =>
    obtain ⟨i, w⟩ := c
    have hc := h
    simp only [Memory.wfAbove, Bool.and_eq_true] at h
    simp only [Memory.write]
    split
    · rw [read_cons]; simp_all [Memory.wfAbove]
    · split
      · subst_vars
        rw [read_cons h.2]
        simp only [Memory.read]
        by_cases hj : j = i
        · simp [hj]
        · simp [hj, Ne.symm hj]
      · simp only [Memory.read]
        rw [ih h.2]
        by_cases hij : i = j
        · subst hij; rw [if_pos rfl, if_neg (by omega), if_pos rfl]
        · simp [hij]

/-- A word reads what was last written to it, and every other word is left alone. -/
theorem memory_read_write {m : Memory} (h : m.wf = true) (k j : Nat) (v : Word) :
    (m.write k v).read j = if j = k then v else m.read j := read_write_above h k j v

/-- The alignment rule of R62 as a number. -/
theorem aligned_iff (a : Word) : aligned a = true ↔ a.toNat % 4 = 0 := by
  simp only [aligned, beq_iff_eq]
  constructor
  · intro h
    simpa [BitVec.extractLsb'_toNat] using congrArg BitVec.toNat h
  · intro h
    apply BitVec.eq_of_toNat_eq
    simpa [BitVec.extractLsb'_toNat] using h

/-- An access is to word `k` exactly where the address is four times `k` and the array has that word. -/
theorem locate_eq_word {n k : Nat} {a : Word} : locate n a = .word k ↔ k < n ∧ a.toInt = 4 * (k : Int) := by
  have hi := BitVec.toInt_eq_toNat_cond a
  have hl := a.isLt
  unfold locate wordBytes
  by_cases h : aligned a = true
  · have h4 := (aligned_iff a).mp h
    rw [if_pos h]
    split
    · simp only [Access.word.injEq]; omega
    · simp only [reduceCtorEq, false_iff]; omega
  · have h4 : ¬ a.toNat % 4 = 0 := fun h4 => h ((aligned_iff a).mpr h4)
    rw [if_neg h]
    simp only [reduceCtorEq, false_iff]
    split at hi <;> omega

/-- An access is misaligned exactly where the low two bits are not both 0, whatever the magnitude. -/
theorem locate_eq_misaligned {n : Nat} {a : Word} : locate n a = .misaligned ↔ a.toNat % 4 ≠ 0 := by
  unfold locate
  rw [ne_eq, ← aligned_iff]
  split
  · split <;> simp_all
  · simp_all

/-- An access is outside exactly where the address is aligned and its word is not in the array. -/
theorem locate_eq_outside {n : Nat} {a : Word} :
    locate n a = .outside ↔ a.toNat % 4 = 0 ∧ (a.toInt < 0 ∨ 4 * (n : Int) ≤ a.toInt) := by
  unfold locate wordBytes
  rw [← aligned_iff]
  by_cases h : aligned a = true
  · rw [if_pos h]
    simp only [h, true_and]
    split
    · simp only [reduceCtorEq, false_iff]; omega
    · simp only [true_iff]; omega
  · simp [h]

/-- All a read can do: 0 for a misaligned address, else the word of an aligned address inside the array (R63). -/
theorem memRead_next {n : Nat} {m : Memory} {a v : Word} (h : memRead n m a = .next v) :
    (locate n a = .misaligned ∧ v = 0) ∨ ∃ k, locate n a = .word k ∧ v = m.read k := by
  unfold memRead at h
  split at h <;> simp_all

/-- All a write can do: nothing for a misaligned address, else the word of an aligned address inside the array (R64). -/
theorem memWrite_next {n : Nat} {m m' : Memory} {a v : Word} (h : memWrite n m a v = .next m') :
    (locate n a = .misaligned ∧ m' = m) ∨ ∃ k, locate n a = .word k ∧ m' = m.write k v := by
  unfold memWrite at h
  split at h <;> simp_all

/-- A write through the port keeps the canonical form. -/
theorem memWrite_wf {n : Nat} {m m' : Memory} {a v : Word} (h : memWrite n m a v = .next m') (hm : m.wf = true) :
    m'.wf = true := by
  obtain ⟨-, rfl⟩ | ⟨k, -, rfl⟩ := memWrite_next h
  · exact hm
  · exact write_wf k v hm

end Sys2Proof.Machine
end

