-- ==== Sys2Proof/Laws/PerInstr.lean ====
section
/-! SUPPORT. What holds of every instruction as syntax, one lemma per constructor. -/

namespace Sys2Proof.Laws.OpcodeNumber

/-- Every word that decodes to the instruction, its encoding among them, carries its opcode number in `iw[63:60]` (R94). -/
def Statement (i : Instr) : Prop :=
  (encode i).extractLsb' 60 4 = i.opcode ∧ ∀ w, decode w = .ok i → w.extractLsb' 60 4 = i.opcode

theorem add (f : Fields) : Statement (.add f) := ⟨encode_opcode _, fun _ h => (decode_eq_ok h).1⟩
theorem sub (f : Fields) : Statement (.sub f) := ⟨encode_opcode _, fun _ h => (decode_eq_ok h).1⟩
theorem load (f : Fields) : Statement (.load f) := ⟨encode_opcode _, fun _ h => (decode_eq_ok h).1⟩
theorem store (f : Fields) : Statement (.store f) := ⟨encode_opcode _, fun _ h => (decode_eq_ok h).1⟩
theorem beq (f : Fields) : Statement (.beq f) := ⟨encode_opcode _, fun _ h => (decode_eq_ok h).1⟩
theorem jump (f : Fields) : Statement (.jump f) := ⟨encode_opcode _, fun _ h => (decode_eq_ok h).1⟩
theorem out (f : Fields) : Statement (.out f) := ⟨encode_opcode _, fun _ h => (decode_eq_ok h).1⟩
theorem set (f : Fields) : Statement (.set f) := ⟨encode_opcode _, fun _ h => (decode_eq_ok h).1⟩
theorem nop (f : Fields) : Statement (.nop f) := ⟨encode_opcode _, fun _ h => (decode_eq_ok h).1⟩

end Sys2Proof.Laws.OpcodeNumber
end

