-- ==== Sys2Proof/Laws/State.lean ====
section
/-! SUPPORT. The small lemmas of State: what each named update leaves in each field, and the register file's read after
write. -/

namespace Sys2Proof.Machine

/-! ### issue -/

@[simp] theorem issue_cfg (i : Instr) (s : State) : (s.issue i).cfg = s.cfg := rfl
@[simp] theorem issue_pc (i : Instr) (s : State) : (s.issue i).pc = s.pc := rfl
@[simp] theorem issue_regs (i : Instr) (s : State) : (s.issue i).regs = s.regs := rfl
@[simp] theorem issue_mem (i : Instr) (s : State) : (s.issue i).mem = s.mem := rfl
@[simp] theorem issue_ports (i : Instr) (s : State) : (s.issue i).ports = s.ports := rfl
@[simp] theorem issue_ifid (i : Instr) (s : State) : (s.issue i).ifid = s.ifid := rfl
@[simp] theorem issue_idex (i : Instr) (s : State) : (s.issue i).idex = some (exSlot i s) := rfl
@[simp] theorem issue_exmem (i : Instr) (s : State) : (s.issue i).exmem = s.exmem := rfl
@[simp] theorem issue_memwb (i : Instr) (s : State) : (s.issue i).memwb = s.memwb := rfl
@[simp] theorem issue_cycles (i : Instr) (s : State) : (s.issue i).cycles = s.cycles := rfl
@[simp] theorem issue_retired (i : Instr) (s : State) : (s.issue i).retired = s.retired := rfl
@[simp] theorem issue_outLog (i : Instr) (s : State) : (s.issue i).outLog = s.outLog := rfl

/-- The slot of an instruction that ID/EX holds is the latch's occupant. -/
theorem exSlot_of_idex {s : State} {e : IdEx} (h : s.idex = some e) : exSlot e.instr s = e := by simp [exSlot, h]

/-- Issuing the instruction that ID/EX holds changes nothing. -/
theorem issue_of_idex {s : State} {e : IdEx} (h : s.idex = some e) : s.issue e.instr = s := by
  cases s; simp_all [State.issue, exSlot]

@[simp] theorem exSlot_instr (i : Instr) (s : State) : (exSlot i s).instr = i := by
  unfold exSlot; split <;> rfl

/-! ### reset -/

@[simp] theorem resetWith_cfg (c : Config) : (State.resetWith c).cfg = c := rfl
@[simp] theorem resetWith_pc (c : Config) : (State.resetWith c).pc = 0 := rfl
@[simp] theorem resetWith_mem (c : Config) : (State.resetWith c).mem = [] := rfl
@[simp] theorem resetWith_ports (c : Config) : (State.resetWith c).ports = List.replicate c.nPorts 0 := rfl
@[simp] theorem resetWith_ifid (c : Config) : (State.resetWith c).ifid = none := rfl
@[simp] theorem resetWith_idex (c : Config) : (State.resetWith c).idex = none := rfl
@[simp] theorem resetWith_exmem (c : Config) : (State.resetWith c).exmem = none := rfl
@[simp] theorem resetWith_memwb (c : Config) : (State.resetWith c).memwb = none := rfl
@[simp] theorem resetWith_cycles (c : Config) : (State.resetWith c).cycles = 0 := rfl
@[simp] theorem resetWith_retired (c : Config) : (State.resetWith c).retired = 0 := rfl
@[simp] theorem resetWith_outLog (c : Config) : (State.resetWith c).outLog = [] := rfl

/-! ### the register file -/

/-- A register reads what was last written to it; the others are as before. -/
@[simp] theorem read_write (x : RegFile) (i j : RegIndex) (v : Word) :
    (x.write i v).read j = if j = i then v else x.read j := by
  unfold RegFile.read RegFile.write
  rw [Vector.getElem_set]
  by_cases h : j = i
  · simp [h]
  · have : i.toNat ≠ j.toNat := fun hn => h (BitVec.eq_of_toNat_eq hn.symm)
    simp [h, this]

/-- Register 0 reads 0 after the zero register is re-asserted; the others are as before. -/
@[simp] theorem read_assertZero (x : RegFile) (j : RegIndex) :
    x.assertZero.read j = if j = 0#4 then 0#32 else x.read j := by
  unfold RegFile.read RegFile.assertZero
  rw [Vector.getElem_set]
  by_cases h : j = 0#4
  · simp [h]
  · have : ¬ 0 = j.toNat := fun hn => h (BitVec.eq_of_toNat_eq (by simpa using hn.symm))
    rw [if_neg this, if_neg h]

/-- Every register of the reset register file reads 0. -/
@[simp] theorem read_replicate (j : RegIndex) : RegFile.read (Vector.replicate 16 0#32) j = 0#32 := by
  simp [RegFile.read]

@[simp] theorem resetWith_reg (c : Config) (i : RegIndex) : (State.resetWith c).reg i = 0#32 := read_replicate i

/-- Two register files that read alike are equal. -/
theorem regFile_ext {x y : RegFile} (h : ∀ i, x.read i = y.read i) : x = y := by
  apply Vector.ext
  intro k hk
  have := h (BitVec.ofNat 4 k)
  simp only [RegFile.read, BitVec.toNat_ofNat] at this
  have hm : k % 16 = k := Nat.mod_eq_of_lt hk
  simpa [hm] using this

end Sys2Proof.Machine
end

