-- ==== Sys2Proof/Laws/Stages.lean ====
section
/-! SUPPORT. One lemma per shared operation that says once everything it can do, and the inversion of exec and of step. -/

namespace Sys2Proof.Machine

@[simp] theorem andThen_next_eq {α β : Type} (a : α) (k : α → Host.Outcome β Fault Refusal) :
    andThen (.next a) k = k a := rfl

@[simp] theorem andThen_fault_eq {α β : Type} (r : Fault) (k : α → Host.Outcome β Fault Refusal) :
    andThen (.fault r) k = .fault r := rfl

@[simp] theorem andThen_refused_eq {α β : Type} (r : Refusal) (k : α → Host.Outcome β Fault Refusal) :
    andThen (.refused r) k = .refused r := rfl

/-- A sequence answers next exactly where both parts do. -/
theorem andThen_eq_next {α β : Type} {o : Host.Outcome α Fault Refusal} {k : α → Host.Outcome β Fault Refusal} {b : β} :
    andThen o k = .next b ↔ ∃ a, o = .next a ∧ k a = .next b := by
  cases o <;> simp

/-- A sequence faults exactly where one of its parts does. -/
theorem andThen_eq_fault {α β : Type} {o : Host.Outcome α Fault Refusal} {k : α → Host.Outcome β Fault Refusal} {r : Fault} :
    andThen o k = .fault r ↔ o = .fault r ∨ ∃ a, o = .next a ∧ k a = .fault r := by
  cases o <;> simp

/-- The three kinds of commit exclude one another. -/
theorem isOut_not_writesBack {i : Instr} (h : isOut i = true) : writesBack i = false := by
  cases i <;> simp_all [isOut, writesBack]

theorem isLoad_writesBack {i : Instr} (h : isLoad i = true) : writesBack i = true := by
  cases i <;> simp_all [isLoad, writesBack]

/-- All an OUT's port write can do (R291). -/
theorem writePort_next {s t : State} {imm v : Word} (h : writePort s imm v = .next t) :
    ∃ k, portIndex s.cfg.nPorts imm = some k ∧
      t = { s with ports := s.ports.set k v, outLog := s.outLog ++ [⟨s.cycles + 1, k, v⟩] } := by
  unfold writePort at h
  split at h
  · exact ⟨_, ‹_›, by simpa using h.symm⟩
  · cases h

/-- All a commit can do (R195). -/
theorem commit_next {s t : State} {w : MemWb} (h : commit s w = .next t) :
    (writesBack w.instr = true ∧ t = { s with regs := s.regs.write w.instr.fields.rd w.res }) ∨
    (isOut w.instr = true ∧ ∃ k, portIndex s.cfg.nPorts w.instr.fields.imm = some k ∧
      t = { s with ports := s.ports.set k w.res, outLog := s.outLog ++ [⟨s.cycles + 1, k, w.res⟩] }) ∨
    (writesBack w.instr = false ∧ isOut w.instr = false ∧ t = s) := by
  unfold commit at h
  split at h
  · exact .inl ⟨‹_›, by simpa using h.symm⟩
  · split at h
    · obtain ⟨k, hk, rfl⟩ := writePort_next h
      exact .inr (.inl ⟨‹_›, k, hk, rfl⟩)
    · exact .inr (.inr ⟨by simp_all, by simp_all, by simpa using h.symm⟩)

/-- All the WB step can do (R195). -/
theorem wbStep_next {s t : State} (h : wbStep s = .next t) :
    (s.memwb = none ∧ t = { s with regs := s.regs.assertZero }) ∨
    ∃ w, s.memwb = some w ∧
      ((writesBack w.instr = true ∧
        t = { s with regs := (s.regs.write w.instr.fields.rd w.res).assertZero, retired := s.retired + 1 }) ∨
       (isOut w.instr = true ∧ ∃ k, portIndex s.cfg.nPorts w.instr.fields.imm = some k ∧
        t = { s with
          regs := s.regs.assertZero
          ports := s.ports.set k w.res
          outLog := s.outLog ++ [⟨s.cycles + 1, k, w.res⟩]
          retired := s.retired + 1 }) ∨
       (writesBack w.instr = false ∧ isOut w.instr = false ∧
        t = { s with regs := s.regs.assertZero, retired := s.retired + 1 })) := by
  unfold wbStep at h
  split at h
  · exact .inl ⟨‹_›, by simpa using h.symm⟩
  · rename_i w hw
    obtain ⟨u, hu, ht⟩ := andThen_eq_next.mp h
    cases ht
    refine .inr ⟨w, hw, ?_⟩
    obtain ⟨hb, rfl⟩ | ⟨ho, k, hk, rfl⟩ | ⟨hb, ho, rfl⟩ := commit_next hu
    · exact .inl ⟨hb, rfl⟩
    · exact .inr (.inl ⟨ho, k, hk, rfl⟩)
    · exact .inr (.inr ⟨hb, ho, rfl⟩)

/-- What the WB step leaves alone, whatever it commits: the parameters, `pc`, the memory, the latches and `cycles` (R192). -/
theorem wbStep_frame {s t : State} (h : wbStep s = .next t) :
    t.cfg = s.cfg ∧ t.pc = s.pc ∧ t.mem = s.mem ∧ t.ifid = s.ifid ∧ t.idex = s.idex ∧ t.exmem = s.exmem ∧
      t.memwb = s.memwb ∧ t.cycles = s.cycles := by
  obtain ⟨-, rfl⟩ | ⟨w, -, ⟨-, rfl⟩ | ⟨-, k, -, rfl⟩ | ⟨-, -, rfl⟩⟩ := wbStep_next h <;> simp

/-- Register 0 reads 0 after every WB step (R22). -/
theorem wbStep_zero {s t : State} (h : wbStep s = .next t) : t.regs.read 0 = 0 := by
  obtain ⟨-, rfl⟩ | ⟨w, -, ⟨-, rfl⟩ | ⟨-, k, -, rfl⟩ | ⟨-, -, rfl⟩⟩ := wbStep_next h <;> simp

/-- All the MEM step can do (R198). -/
theorem memStep_next {s : State} {p : Memory × Option MemWb} (h : memStep s = .next p) :
    (s.exmem = none ∧ p = (s.mem, none)) ∨
    ∃ m, s.exmem = some m ∧
      ((isLoad m.instr = true ∧ ∃ v, memRead s.cfg.memWords s.mem m.alu = .next v ∧ p = (s.mem, some ⟨m.pc, m.instr, v⟩)) ∨
       (isStore m.instr = true ∧ ∃ t, memWrite s.cfg.memWords s.mem m.alu m.sv = .next t ∧
          p = (t, some ⟨m.pc, m.instr, m.alu⟩)) ∨
       (isLoad m.instr = false ∧ isStore m.instr = false ∧ p = (s.mem, some ⟨m.pc, m.instr, m.alu⟩))) := by
  unfold memStep at h
  split at h
  · exact .inl ⟨‹_›, by simpa using h.symm⟩
  · rename_i m hm
    refine .inr ⟨m, hm, ?_⟩
    split at h
    · obtain ⟨v, hv, hp⟩ := andThen_eq_next.mp h
      exact .inl ⟨‹_›, v, hv, by simpa using hp.symm⟩
    · split at h
      · obtain ⟨t, ht, hp⟩ := andThen_eq_next.mp h
        exact .inr (.inl ⟨‹_›, t, ht, by simpa using hp.symm⟩)
      · exact .inr (.inr ⟨by simp_all, by simp_all, by simpa using h.symm⟩)

/-- The MEM step keeps the canonical form of the memory. -/
theorem memStep_wf {s : State} {p : Memory × Option MemWb} (h : memStep s = .next p) (hm : s.mem.wf = true) :
    p.1.wf = true := by
  obtain ⟨-, rfl⟩ | ⟨m, -, ⟨-, v, -, rfl⟩ | ⟨-, t, ht, rfl⟩ | ⟨-, -, rfl⟩⟩ := memStep_next h
  · exact hm
  · exact hm
  · exact memWrite_wf ht hm
  · exact hm

/-- All a fetch can do (R213): the program's instruction and the next index, or nothing past the end. -/
theorem fetch_next {c : Config} {pc : InstrIndex} {f : Option IfId × InstrIndex} (h : fetch c pc = .next f) :
    (progWord c pc = none ∧ f = (none, pc)) ∨ ∃ i, progInstr c pc = some i ∧ f = (some ⟨pc, i⟩, pc + 1) := by
  unfold fetch at h
  split at h
  · exact .inl ⟨‹_›, by simpa using h.symm⟩
  · rename_i w hw
    split at h
    · rename_i i hi
      exact .inr ⟨i, by simp [progInstr, hw, hi], by simpa using h.symm⟩
    · cases h

/-- All the IF step can do: a redirect, a hold, or a fetch, in this order of priority (R210, R211, R213). -/
theorem ifStep_next {s : State} {r : Option InstrIndex} {f : Option IfId × InstrIndex} (h : ifStep s r = .next f) :
    (∃ a, r = some a ∧ f = (none, a)) ∨ (r = none ∧ hazard s = true ∧ f = (s.ifid, s.pc)) ∨
    (r = none ∧ hazard s = false ∧ fetch s.cfg s.pc = .next f) := by
  unfold ifStep at h
  split at h
  · exact .inl ⟨_, rfl, by simpa using h.symm⟩
  · split at h
    · rename_i hs
      exact .inr (.inl ⟨rfl, by simpa [stall] using hs, by simpa using h.symm⟩)
    · rename_i hs
      exact .inr (.inr ⟨rfl, by simpa [stall] using hs, h⟩)

/-- All a cycle can do: the three steps that can stop it answer next, and the next state is put together from them (R215). -/
theorem finishCycle_next {s t : State} {ex : Option ExMem} {r : Option InstrIndex} :
    finishCycle s ex r = .next t ↔ ∃ u p f, wbStep s = .next u ∧ memStep s = .next p ∧ ifStep s r = .next f ∧
      t = { u with
        pc := f.2
        mem := p.1
        ifid := f.1
        idex := idStep s u.regs r.isSome
        exmem := ex
        memwb := p.2
        cycles := s.cycles + 1 } := by
  unfold finishCycle
  constructor
  · intro h
    obtain ⟨u, hu, h⟩ := andThen_eq_next.mp h
    obtain ⟨p, hp, h⟩ := andThen_eq_next.mp h
    obtain ⟨f, hf, h⟩ := andThen_eq_next.mp h
    exact ⟨u, p, f, hu, hp, hf, by simpa using h.symm⟩
  · rintro ⟨u, p, f, hu, hp, hf, rfl⟩
    simp [hu, hp, hf]

/-- Each of the nine meanings is the cycle around its own EX result: exec in one equation (R201, R215). -/
theorem exec_eq (i : Instr) (s : State) :
    exec i s = finishCycle (s.issue i)
      (some ⟨(exSlot i s).pc, i, (exResult s.cfg i (forward s (exSlot i s))).alu,
        (exResult s.cfg i (forward s (exSlot i s))).sv⟩)
      (exResult s.cfg i (forward s (exSlot i s))).redirect := by
  cases i <;> rfl

/-- A step that neither refuses nor holds is the cycle of its snapshot. -/
theorem step_of_running {s : State} (h : s.running = true) :
    step s = finishCycle s (nextExMem s) (takenTarget s) := by
  simp only [State.running, State.termination, Bool.and_eq_true, Option.isNone_iff_eq_none] at h
  obtain ⟨hl, ht⟩ := h
  have hd : s.done = false := by
    by_contra hd
    simp [Bool.not_eq_false _ |>.mp hd] at ht
  have hc : s.capped = false := by
    by_contra hc
    simp [hd, Bool.not_eq_false _ |>.mp hc] at ht
  simp only [step, hl, hd, hc, Bool.or_self, Bool.false_eq_true, if_false]
  cases hx : s.idex with
  | none => simp [nextExMem, takenTarget, hx, bubbleCycle]
  | some e => simp [exec_eq, nextExMem, takenTarget, hx, issue_of_idex hx, exSlot_of_idex hx]

/-- What `running` says: the parameters are accepted, the run is not done, and the cap is not reached. -/
theorem running_iff {s : State} :
    s.running = true ↔ loadProblem s.cfg = none ∧ s.done = false ∧ s.cycles < s.cfg.maxCycles := by
  have hc : s.capped = false ↔ s.cycles < s.cfg.maxCycles := by simp [State.capped]
  rw [← hc]
  unfold State.running State.termination
  cases s.done <;> cases s.capped <;> cases loadProblem s.cfg <;> simp

/-- All a step can do: it holds a state that has ended, or it performs the cycle of its snapshot. -/
theorem step_next {s t : State} (h : step s = .next t) :
    loadProblem s.cfg = none ∧
      ((s.termination.isSome = true ∧ t = s) ∨
       (s.running = true ∧ finishCycle s (nextExMem s) (takenTarget s) = .next t)) := by
  have h0 := h
  unfold step at h
  split at h
  · cases h
  · rename_i hl
    refine ⟨hl, ?_⟩
    by_cases hd : s.done || s.capped
    · rw [if_pos hd] at h
      refine .inl ⟨?_, by simpa using h.symm⟩
      unfold State.termination
      rcases Bool.or_eq_true _ _ ▸ hd with hd | hd <;> simp [hd]
      split <;> simp
    · have hr : s.running = true := by
        simp only [Bool.or_eq_true, not_or, Bool.not_eq_true] at hd
        simp [State.running, State.termination, hl, hd.1, hd.2]
      exact .inr ⟨hr, by rw [← step_of_running hr]; exact h0⟩

/-- Under `cycleOk` no stage stops the cycle, whatever the EX step yields. -/
theorem finishCycle_completes {s : State} (h : s.cycleOk = true) (ex : Option ExMem) (r : Option InstrIndex) :
    ∃ t, finishCycle s ex r = .next t := by
  simp only [State.cycleOk, Bool.and_eq_true] at h
  obtain ⟨⟨ha, hc⟩, hf⟩ := h
  have hw : ∃ u, wbStep s = .next u := by
    unfold wbStep
    cases hm : s.memwb with
    | none => exact ⟨_, rfl⟩
    | some w =>
      simp only [State.commitOk, hm] at hc
      unfold commit writePort
      by_cases hb : writesBack w.instr
      · simp [hb]
      · by_cases ho : isOut w.instr
        · simp only [ho, Bool.not_true, Bool.false_or] at hc
          obtain ⟨k, hk⟩ := Option.isSome_iff_exists.mp hc
          simp [hb, ho, hk]
        · simp [hb, ho]
  have hm : ∃ p, memStep s = .next p := by
    unfold memStep
    cases hm : s.exmem with
    | none => exact ⟨_, rfl⟩
    | some m =>
      simp only [State.accessOk, hm] at ha
      unfold memRead memWrite
      by_cases hl : isLoad m.instr <;> by_cases hs : isStore m.instr <;> simp_all <;>
        (cases hx : locate s.cfg.memWords m.alu <;> simp_all)
  have hi : ∃ f, ifStep s r = .next f := by
    unfold ifStep
    split
    · exact ⟨_, rfl⟩
    · split
      · exact ⟨_, rfl⟩
      · unfold fetch
        simp only [State.fetchOk, progInstr] at hf
        cases hp : progWord s.cfg s.pc with
        | none => exact ⟨_, rfl⟩
        | some w => cases hd : decode w <;> simp_all
  obtain ⟨u, hu⟩ := hw
  obtain ⟨p, hp⟩ := hm
  obtain ⟨f, hf⟩ := hi
  exact ⟨_, finishCycle_next.mpr ⟨u, p, f, hu, hp, hf, rfl⟩⟩

end Sys2Proof.Machine
end

