-- ==== Sys2Proof/Laws/Relations.lean ====
section
/-! SUPPORT. The small lemmas of the two relations between states (`State.withZeroSetting`, `SameButUnused`), and what a state
that holds shows at its ports. -/

namespace Sys2Proof.Machine

/-! ### The other setting of FWD_ZERO_REG -/

@[simp] theorem withZeroSetting_fwdZeroReg (s : State) (z : FwdZeroReg) : (s.withZeroSetting z).cfg.fwdZeroReg = z := rfl
@[simp] theorem withZeroSetting_pc (s : State) (z : FwdZeroReg) : (s.withZeroSetting z).pc = s.pc := rfl
@[simp] theorem withZeroSetting_regs (s : State) (z : FwdZeroReg) : (s.withZeroSetting z).regs = s.regs := rfl
@[simp] theorem withZeroSetting_mem (s : State) (z : FwdZeroReg) : (s.withZeroSetting z).mem = s.mem := rfl
@[simp] theorem withZeroSetting_ports (s : State) (z : FwdZeroReg) : (s.withZeroSetting z).ports = s.ports := rfl
@[simp] theorem withZeroSetting_ifid (s : State) (z : FwdZeroReg) : (s.withZeroSetting z).ifid = s.ifid := rfl
@[simp] theorem withZeroSetting_idex (s : State) (z : FwdZeroReg) : (s.withZeroSetting z).idex = s.idex := rfl
@[simp] theorem withZeroSetting_exmem (s : State) (z : FwdZeroReg) : (s.withZeroSetting z).exmem = s.exmem := rfl
@[simp] theorem withZeroSetting_memwb (s : State) (z : FwdZeroReg) : (s.withZeroSetting z).memwb = s.memwb := rfl
@[simp] theorem withZeroSetting_cycles (s : State) (z : FwdZeroReg) : (s.withZeroSetting z).cycles = s.cycles := rfl
@[simp] theorem withZeroSetting_retired (s : State) (z : FwdZeroReg) : (s.withZeroSetting z).retired = s.retired := rfl
@[simp] theorem withZeroSetting_outLog (s : State) (z : FwdZeroReg) : (s.withZeroSetting z).outLog = s.outLog := rfl
@[simp] theorem withZeroSetting_running (s : State) (z : FwdZeroReg) : (s.withZeroSetting z).running = s.running := rfl

/-- Every destination but register 0 may be forwarded from, under either setting (R158). -/
theorem mayForward_of_ne_zero {c : Config} {r : RegIndex} (h : r ≠ 0) : mayForward c r = true := by
  unfold mayForward
  split
  · rfl
  · simpa using h

/-! ### Unused fields -/

@[simp] theorem zeroUnused_writesBack (i : Instr) : writesBack (zeroUnused i) = writesBack i := by cases i <;> rfl
@[simp] theorem zeroUnused_isLoad (i : Instr) : isLoad (zeroUnused i) = isLoad i := by cases i <;> rfl
@[simp] theorem zeroUnused_isStore (i : Instr) : isStore (zeroUnused i) = isStore i := by cases i <;> rfl
@[simp] theorem zeroUnused_isOut (i : Instr) : isOut (zeroUnused i) = isOut i := by cases i <;> rfl
@[simp] theorem zeroUnused_srcs (i : Instr) : srcs (zeroUnused i) = srcs i := by cases i <;> rfl
@[simp] theorem zeroUnused_wellFormed (n : Nat) (i : Instr) : (zeroUnused i).wellFormed n = i.wellFormed n := by
  cases i <;> rfl

/-- The destination of an instruction that writes back is a used field. -/
theorem zeroUnused_rd {i : Instr} (h : writesBack i = true) : (zeroUnused i).fields.rd = i.fields.rd := by
  cases i <;> first | rfl | cases h

/-- What the opcode does with its operands does not depend on its unused fields. -/
theorem zeroUnused_exResult (c : Config) (i : Instr) (o : Operands) : exResult c (zeroUnused i) o = exResult c i o := by
  cases i <;> rfl

/-! ### A state that holds -/

/-- All a step can do where no cycle is performed: it leaves the state as it is, if it answers next (R49, R218). -/
theorem step_holds {s t : State} (hr : s.running = false) (h : step s = .next t) : t = s := by
  obtain ⟨-, ⟨-, ht⟩ | ⟨hr', -⟩⟩ := step_next h
  · exact ht
  · rw [hr] at hr'
    cases hr'

theorem dataPort_of_holding {s : State} (hr : s.running = false) : dataPort s = none := by simp [dataPort, hr]
theorem commitEvent_of_holding {s : State} (hr : s.running = false) : commitEvent s = none := by simp [commitEvent, hr]

/-- All that the data port can show: the aligned address of the LOAD or STORE in the MEM step of a cycle (R46). -/
theorem dataPort_eq_some {s : State} {a : DataAccess} (h : dataPort s = some a) :
    s.running = true ∧ ∃ m, s.exmem = some m ∧ aligned m.alu = true ∧
      ((isLoad m.instr = true ∧ a = .read m.alu) ∨ (isStore m.instr = true ∧ a = .write m.alu m.sv)) := by
  unfold dataPort at h
  split at h
  · rename_i hr
    obtain ⟨m, hm, h⟩ := Option.bind_eq_some_iff.mp h
    refine ⟨hr, m, hm, ?_⟩
    unfold presentedAccess at h
    split at h
    · rename_i ha
      refine ⟨ha, ?_⟩
      split at h
      · exact .inl ⟨‹_›, (Option.some.inj h).symm⟩
      · split at h
        · exact .inr ⟨‹_›, (Option.some.inj h).symm⟩
        · cases h
    · cases h
  · cases h

/-- All that a commit event can be: the port and the value of the OUT in the WB step of a cycle (R47). -/
theorem commitEvent_eq_some {s : State} {k : Nat} {v : Word} (h : commitEvent s = some (k, v)) :
    s.running = true ∧ ∃ w, s.memwb = some w ∧ isOut w.instr = true ∧
      portIndex s.cfg.nPorts w.instr.fields.imm = some k ∧ w.res = v := by
  unfold commitEvent at h
  split at h
  · rename_i hr
    obtain ⟨w, hw, h⟩ := Option.bind_eq_some_iff.mp h
    refine ⟨hr, w, hw, ?_⟩
    unfold presentedCommit at h
    split at h
    · rename_i ho
      obtain ⟨j, hj, h⟩ := Option.map_eq_some_iff.mp h
      cases h
      exact ⟨ho, hj, rfl⟩
    · cases h
  · cases h

end Sys2Proof.Machine
end

