-- ==== Sys2Proof/Machine/Assembler.lean ====
section
/-! DEFINITION. The assembler's choices that the spec states (30_encoding.md R92, R98, R104, R105): which record field an
operand goes to, 0 in every unused field, one identifier for each name, and the Label Table from the label definitions. Text
parsing is out of scope (R5). No step uses this file (log 18). -/

namespace Sys2Proof.Machine

/-- One instruction as written, a label by its name (R104). -/
inductive Asm where
  | add (rd ra rb : RegIndex)
  | sub (rd ra rb : RegIndex)
  | load (rd : RegIndex) (imm : Word) (ra : RegIndex)
  | store (rv : RegIndex) (imm : Word) (rb : RegIndex)
  | beq (ra rb : RegIndex) (label : String)
  | jump (label : String)
  | out (port : Word) (ra : RegIndex)
  | set (rd : RegIndex) (imm : Word)
  | nop
deriving DecidableEq, Repr

/-- A line: `name:` or an instruction (R105). -/
inductive AsmLine where
  | label (name : String)
  | instr (a : Asm)
deriving DecidableEq, Repr

/-- The name a BEQ or JUMP uses. -/
def Asm.name : Asm → Option String
  | .beq _ _ l => some l
  | .jump l => some l
  | .add _ _ _ => none
  | .sub _ _ _ => none
  | .load _ _ _ => none
  | .store _ _ _ => none
  | .out _ _ => none
  | .set _ _ => none
  | .nop => none

/-- The record of an instruction, `ident` giving the identifier of a name; unused fields are 0 (R92, R99, R104, D20). -/
def Asm.toInstr (ident : String → Label) : Asm → Instr
  | .add rd ra rb => .add ⟨rd, ra, rb, 0, 0⟩
  | .sub rd ra rb => .sub ⟨rd, ra, rb, 0, 0⟩
  | .load rd imm ra => .load ⟨rd, ra, 0, 0, imm⟩
  | .store rv imm rb => .store ⟨rb, rv, 0, 0, imm⟩
  | .beq ra rb l => .beq ⟨0, ra, rb, ident l, 0⟩
  | .jump l => .jump ⟨0, 0, 0, ident l, 0⟩
  | .out port ra => .out ⟨0, ra, 0, 0, port⟩
  | .set rd imm => .set ⟨rd, 0, 0, 0, imm⟩
  | .nop => .nop ⟨0, 0, 0, 0, 0⟩

/-- `R0` .. `R15` (R20). -/
def regName (r : RegIndex) : String := "R" ++ toString r.toNat

/-- The instruction's text, immediates in signed decimal (R104). -/
def Asm.render : Asm → String
  | .add rd ra rb => "ADD " ++ regName rd ++ "," ++ regName ra ++ "," ++ regName rb
  | .sub rd ra rb => "SUB " ++ regName rd ++ "," ++ regName ra ++ "," ++ regName rb
  | .load rd imm ra => "LOAD " ++ regName rd ++ ", " ++ toString imm.toInt ++ "(" ++ regName ra ++ ")"
  | .store rv imm rb => "STORE " ++ regName rv ++ ", " ++ toString imm.toInt ++ "(" ++ regName rb ++ ")"
  | .beq ra rb l => "BEQ " ++ regName ra ++ "," ++ regName rb ++ "," ++ l
  | .jump l => "JUMP " ++ l
  | .out port ra => "OUT " ++ toString port.toInt ++ "," ++ regName ra
  | .set rd imm => "SET " ++ regName rd ++ "," ++ toString imm.toInt
  | .nop => "NOP"

/-- The instructions of a listing, in order. -/
def asmInstrs : List AsmLine → List Asm
  | [] => []
  | .label _ :: l => asmInstrs l
  | .instr a :: l => a :: asmInstrs l

/-- The label definitions: each name with the index of the next instruction, `PROG_LEN` after the last (R105). -/
def asmLabels : Nat → List AsmLine → List (String × Nat)
  | _, [] => []
  | k, .label n :: l => (n, k) :: asmLabels k l
  | k, .instr _ :: l => asmLabels (k + 1) l

/-- Every name defined or used, once, in order of first appearance: a name's place is its identifier (R98). -/
def asmNames (l : List AsmLine) : List String :=
  l.foldl (fun ns line =>
    let n := match line with
      | .label n => some n
      | .instr a => a.name
    match n with
    | some n => if ns.contains n then ns else ns ++ [n]
    | none => ns) []

/-- The program, its texts and its Label Table. A name that is used and defined nowhere gets an identifier the table does not
hold (R98); a listing that defines one name twice, or has more names than identifiers, has no image (log 18). -/
def assemble (l : List AsmLine) : Option Config :=
  let names := asmNames l
  let defs := asmLabels 0 l
  let ident := fun n => BitVec.ofNat 16 (names.idxOf n)
  if (defs.map Prod.fst).Nodup ∧ names.length ≤ 2 ^ 16 then
    some {
      prog := (asmInstrs l).map fun a => encode (a.toInstr ident)
      text := (asmInstrs l).map Asm.render
      labels := defs.map fun d => (ident d.1, BitVec.ofNat 32 d.2) }
  else none

end Sys2Proof.Machine
end

