-- ==== Sys2Proof/Tests/Slice0.lean ====
section
/-! SUPPORT. Tests of the model, and for every statement with hypotheses a concrete state that meets them. Expected values are
those of 95_test_vectors.md, or are computed by hand from the rule a comment names. -/

namespace Sys2Proof.Tests

open Sys2Proof Sys2Proof.Machine

/-! ### Helpers -/

/-- The state a cycle leads to, the state itself where the cycle does not answer next. -/
def after (o : Host.Outcome State Fault Refusal) (s : State) : State :=
  match o with
  | .next t => t
  | .fault _ => s
  | .refused _ => s

def isNext (o : Host.Outcome State Fault Refusal) : Bool :=
  match o with
  | .next _ => true
  | .fault _ => false
  | .refused _ => false

def nextOf (s : State) : State := after (step s) s

/-- The step from `s` performs a cycle and answers next. -/
def performs (s : State) : Bool := s.running && isNext (step s)

theorem next_of_isNext {o : Host.Outcome State Fault Refusal} (h : isNext o = true) (s : State) : o = .next (after o s) := by
  cases o
  · rfl
  · cases h
  · cases h

theorem step_of_performs {s : State} (h : performs s = true) : s.running = true ∧ step s = .next (nextOf s) := by
  simp only [performs, Bool.and_eq_true] at h
  exact ⟨h.1, next_of_isNext h.2 s⟩

/-- A program of all nine opcodes; label 1 is index 8, label 2 is past the end, label 3 is not in the table. -/
def program : List Instr :=
  [.set ⟨1, 0, 0, 0, 7⟩, .store ⟨0, 1, 0, 0, 4⟩, .load ⟨2, 0, 0, 0, 4⟩, .add ⟨3, 2, 1, 0, 0⟩, .sub ⟨4, 3, 1, 0, 0⟩,
   .out ⟨0, 3, 0, 0, 1⟩, .beq ⟨0, 1, 1, 1, 0⟩, .nop ⟨0, 0, 0, 0, 0⟩, .jump ⟨0, 0, 0, 2, 0⟩]

def config : Config where
  memWords := 4
  nPorts := 2
  prog := program.map encode
  labels := [(1, 8), (2, 9)]
  maxCycles := 20

/-- The state after four cycles of the program: the LOAD of index 2 in ID/EX and its consumer in IF/ID. -/
def mid : State := { State.resetWith config with
  pc := 4
  ifid := some ⟨3, .add ⟨3, 2, 1, 0, 0⟩⟩
  idex := some ⟨2, .load ⟨2, 0, 0, 0, 4⟩, 0, 0, 0⟩
  exmem := some ⟨1, .store ⟨0, 1, 0, 0, 4⟩, 4, 7⟩
  memwb := some ⟨0, .set ⟨1, 0, 0, 0, 7⟩, 7⟩
  cycles := 4 }

/-- A drained pipeline, past the end of the program. -/
def drained : State := { State.resetWith config with pc := 9, mem := [(1, 42)], cycles := 10 }

/-- One instruction in ID/EX with the operand values `vd`, `va` and `vb`, alone in the pipeline. -/
def slot (i : Instr) (vd va vb : Word) : IdEx := ⟨0, i, vd, va, vb⟩
def alone (i : Instr) (vd va vb : Word) : State := { drained with idex := some (slot i vd va vb) }
def inMem (i : Instr) (alu sv : Word) : State := { drained with exmem := some ⟨0, i, alu, sv⟩ }
def inWb (i : Instr) (res : Word) : State := { drained with memwb := some ⟨0, i, res⟩ }

theorem alone_alone (i : Instr) (vd va vb : Word) : AloneInEx (alone i vd va vb) (slot i vd va vb) where
  paramsOk := by show loadProblem config = none; decide
  idex := rfl
  ifid := rfl
  exmem := rfl
  memwb := rfl
  drained := by show inBounds config 9 = false; decide
  room := by show 13 ≤ 20; decide

/-! ### Well-formedness: an ill-formed term for each check -/

theorem test_wellFormed_accepts : program.all (·.wellFormed 2) = true := by decide
theorem test_out_port_at_count_is_ill_formed : (Instr.out ⟨0, 3, 0, 0, 4⟩).wellFormed 4 = false := by decide
theorem test_out_port_negative_is_ill_formed : (Instr.out ⟨0, 3, 0, 0, -1⟩).wellFormed 4 = false := by decide
theorem test_out_port_last_is_well_formed : (Instr.out ⟨0, 15, 0, 0, 3⟩).wellFormed 4 = true := by decide
theorem test_cap_zero_is_refused : loadProblem { maxCycles := 0 } = some .badCycleCap := by decide
theorem test_memory_of_no_words_is_refused : loadProblem { memWords := 0 } = some .badSizes := by decide
theorem test_no_ports_is_refused : loadProblem { nPorts := 0 } = some .badSizes := by decide
theorem test_program_too_long_is_refused (l : List InstrWord) (h : l.length = 2 ^ 32) :
    Config.lengthOk { prog := l } = false := by
  simp [Config.lengthOk, h]
theorem test_reserved_opcode_is_refused : loadProblem { prog := [0, 0x9000000000000000] } = some (.reservedOpcode 1) := by
  decide
theorem test_ill_formed_port_is_refused : loadProblem { prog := [0x60300000FFFFFFFF] } = some (.illFormedPort 0) := by
  decide

/-! ### Decoding: words of 95_test_vectors.md section 2.1, written from the layout of R93 -/

theorem test_decode_add : decode 0x0312000000000000 = .ok (.add ⟨3, 1, 2, 0, 0⟩) := by decide
theorem test_decode_zero_word : decode 0 = .ok (.add ⟨0, 0, 0, 0, 0⟩) := by decide
theorem test_decode_sub : decode 0x1FED000000000000 = .ok (.sub ⟨15, 14, 13, 0, 0⟩) := by decide
theorem test_decode_load : decode 0x2410000000000002 = .ok (.load ⟨4, 1, 0, 0, 2⟩) := by decide
theorem test_decode_store : decode 0x31200000FFFFFFFC = .ok (.store ⟨1, 2, 0, 0, -4⟩) := by decide
theorem test_decode_beq : decode 0x40FEFFFF00000000 = .ok (.beq ⟨0, 15, 14, 65535, 0⟩) := by decide
theorem test_decode_jump : decode 0x5000000100000000 = .ok (.jump ⟨0, 0, 0, 1, 0⟩) := by decide
theorem test_decode_out : decode 0x60F0000000000003 = .ok (.out ⟨0, 15, 0, 0, 3⟩) := by decide
theorem test_decode_set : decode 0x7100000080000000 = .ok (.set ⟨1, 0, 0, 0, -2147483648⟩) := by decide
theorem test_decode_set_with_unused_field : decode 0x7210000000000005 = .ok (.set ⟨2, 1, 0, 0, 5⟩) := by decide
theorem test_decode_nop : decode 0x8FFFFFFFFFFFFFFF = .ok (.nop ⟨15, 15, 15, 65535, -1⟩) := by decide
theorem test_decode_reserved : decode 0xF000000000000000 = .error (.reservedOpcode 15) := by decide
theorem test_encode : encode (.store ⟨1, 2, 0, 0, -4⟩) = 0x31200000FFFFFFFC := by decide

/-! ### One step of each instruction -/

/-- R230, R233: the sum wraps. -/
theorem test_add_wraps : (nextOf (alone (.add ⟨3, 1, 2, 0, 0⟩) 0 0x7FFFFFFF 1)).exmem =
    some ⟨0, .add ⟨3, 1, 2, 0, 0⟩, 0x80000000, 0⟩ := by decide
/-- R231: the first source minus the second. -/
theorem test_sub_order : (nextOf (alone (.sub ⟨3, 1, 2, 0, 0⟩) 0 3 5)).exmem =
    some ⟨0, .sub ⟨3, 1, 2, 0, 0⟩, -2, 0⟩ := by decide
theorem test_set : (nextOf (alone (.set ⟨1, 0, 0, 0, -1⟩) 9 9 9)).exmem = some ⟨0, .set ⟨1, 0, 0, 0, -1⟩, -1, 0⟩ := by
  decide
/-- R251: the base is the `ra` field's register. -/
theorem test_load_address : (nextOf (alone (.load ⟨4, 1, 0, 0, -4⟩) 100 8 50)).exmem =
    some ⟨0, .load ⟨4, 1, 0, 0, -4⟩, 4, 0⟩ := by decide
/-- R63: a word of memory, and 0 from a misaligned address. -/
theorem test_load_reads : (nextOf (inMem (.load ⟨4, 1, 0, 0, 0⟩) 4 0)).memwb = some ⟨0, .load ⟨4, 1, 0, 0, 0⟩, 42⟩ ∧
    (nextOf (inMem (.load ⟨4, 1, 0, 0, 0⟩) 6 0)).memwb = some ⟨0, .load ⟨4, 1, 0, 0, 0⟩, 0⟩ := by decide
/-- R256: the base is the `rd` field's register, the value that of the `ra` field. -/
theorem test_store_address : (nextOf (alone (.store ⟨1, 2, 0, 0, 4⟩) 8 77 50)).exmem =
    some ⟨0, .store ⟨1, 2, 0, 0, 4⟩, 12, 77⟩ := by decide
/-- R64: the last word is written, a misaligned store is dropped. -/
theorem test_store_writes : (nextOf (inMem (.store ⟨1, 2, 0, 0, 0⟩) 12 77)).mem = [(1, 42), (3, 77)] ∧
    (nextOf (inMem (.store ⟨1, 2, 0, 0, 0⟩) 13 77)).mem = [(1, 42)] := by decide
/-- R172: equal values and a label in the table. -/
theorem test_beq_taken : (nextOf (alone (.beq ⟨0, 1, 2, 1, 0⟩) 0 5 5)).pc = 8 := by decide
theorem test_beq_not_taken : (nextOf (alone (.beq ⟨0, 1, 2, 1, 0⟩) 0 5 6)).pc = 9 := by decide
theorem test_jump_taken : (nextOf (alone (.jump ⟨0, 0, 0, 1, 0⟩) 0 0 0)).pc = 8 := by decide
/-- R173: a label that is not in the table falls through. -/
theorem test_jump_label_not_found : (nextOf (alone (.jump ⟨0, 0, 0, 3, 0⟩) 0 0 0)).pc = 9 := by decide
theorem test_out_passes_its_source : (nextOf (alone (.out ⟨0, 3, 0, 0, 1⟩) 1 12 2)).exmem =
    some ⟨0, .out ⟨0, 3, 0, 0, 1⟩, 12, 0⟩ := by decide
/-- R291: the commit carries the number of the cycle that performs it. -/
theorem test_out_commits : (nextOf (inWb (.out ⟨0, 3, 0, 0, 1⟩) 12)).ports = [0, 12] ∧
    (nextOf (inWb (.out ⟨0, 3, 0, 0, 1⟩) 12)).outLog = [⟨11, 1, 12⟩] := by decide
theorem test_nop : (nextOf (alone (.nop ⟨15, 15, 15, 65535, -1⟩) 3 3 3)).exmem =
    some ⟨0, .nop ⟨15, 15, 15, 65535, -1⟩, 0, 0⟩ := by decide
/-- S5 of 95_test_vectors.md: a result for register 0 passes WB and leaves it 0. -/
theorem test_zero_register : (nextOf (inWb (.set ⟨0, 0, 0, 0, 9⟩) 9)).reg 0 = 0 := by decide
/-- A word that is placed with its fetch and its decode done executes in the next step. -/
theorem test_withFetchWord : (nextOf (State.reset.withFetchWord 64 0x7100000000000005)).exmem =
    some ⟨0, .set ⟨1, 0, 0, 0, 5⟩, 5, 0⟩ := by decide
theorem test_decodeTableWord : decodeTableWord 64 0x7100000000000005 = some (.set ⟨1, 0, 0, 0, 5⟩) := by decide

/-! ### Witnesses: the hypotheses of each statement, met -/

theorem witness_EncodeOfDecodeIsTheWord : decode 0x8FFFFFFFFFFFFFFF = .ok (.nop ⟨15, 15, 15, 65535, -1⟩) := by decide

/-- A run whose image is the one word `w`, at reset. -/
def oneWord (w : InstrWord) : State := State.resetWith { prog := [w] }

/-- The lowest and the highest reserved number. -/
theorem witness_ReservedOpcodesAreRefused :
    (oneWord 0x9000000000000000).cfg.prog[0]? = some 0x9000000000000000 ∧
    9 ≤ ((0x9000000000000000 : InstrWord).extractLsb' 60 4).toNat ∧
    (oneWord 0xF000000000000000).cfg.prog[0]? = some 0xF000000000000000 ∧
    9 ≤ ((0xF000000000000000 : InstrWord).extractLsb' 60 4).toNat := by decide

/-- An occupied pipeline that keeps the invariant. -/
theorem witness_Inv_mid : Inv mid where
  zeroRegister := by decide
  memCanonical := by decide
  memInside _ _ := rfl
  portCount := by decide
  portsHoldLast k hk := by
    have : ∀ j < 2, mid.port j = lastOutput mid.outLog j := by decide
    exact this k hk
  historyInside _ h := by cases h
  historyOrdered := .nil
  ifidFromProgram d h := by cases h; decide
  idexFromProgram e h := by cases h; decide
  exmemFromProgram m h := by cases h; decide
  memwbFromProgram w h := by cases h; decide
  interlock m e hm he hl := by cases hm; cases he; cases hl
  retiredLeCycles := by decide

/-- A LOAD whose aligned address is the first one past the array, in the MEM step. -/
def outOfRange : State := { State.resetWith { memWords := 4, nPorts := 2, prog := [encode (.load ⟨1, 0, 0, 0, 16⟩)] } with
  pc := 1
  exmem := some ⟨0, .load ⟨1, 0, 0, 0, 16⟩, 16, 0⟩
  cycles := 3 }

theorem witness_Inv_outOfRange : Inv outOfRange where
  zeroRegister := by decide
  memCanonical := by decide
  memInside _ _ := rfl
  portCount := by decide
  portsHoldLast k hk := by
    have : ∀ j < 2, outOfRange.port j = lastOutput outOfRange.outLog j := by decide
    exact this k hk
  historyInside _ h := by cases h
  historyOrdered := .nil
  ifidFromProgram d h := by cases h
  idexFromProgram e h := by cases h
  exmemFromProgram m h := by cases h; decide
  memwbFromProgram w h := by cases h
  interlock m e _ he := by cases he
  retiredLeCycles := by decide

/-- Accepted parameters, the cap 0, the sizes 0, a reserved opcode, the port index that is one past the array: each holds in a
state that keeps the invariant. -/
theorem witness_ExactlyIllFormedRunsAreRefused :
    Inv mid ∧
    (∃ s, Inv s ∧ s.cfg.maxCycles < 1) ∧ (∃ s, Inv s ∧ s.cfg.memWords = 0) ∧ (∃ s, Inv s ∧ s.cfg.nPorts = 0) ∧
    (∃ s, Inv s ∧ 2 ^ 32 ≤ s.cfg.prog.length) ∧
    (∃ s w, Inv s ∧ s.cfg.prog[0]? = some w ∧ 9 ≤ (w.extractLsb' 60 4).toNat) ∧
    (∃ s w f, Inv s ∧ s.cfg.prog[0]? = some w ∧ decode w = .ok (.out f) ∧ ¬ (0 ≤ f.imm.toInt ∧ f.imm.toInt < s.cfg.nPorts)) := by
  refine ⟨witness_Inv_mid, ⟨{ mid with cfg := { config with maxCycles := 0 } }, ?_, by decide⟩,
    ⟨{ mid with cfg := { config with memWords := 0 } }, ?_, by decide⟩,
    ⟨{ mid with cfg := { config with nPorts := 0 }, ports := [] }, ?_, by decide⟩,
    ⟨{ drained with cfg := { config with prog := List.replicate (2 ^ 32) 0 }, mem := [] }, ?_, by rw [List.length_replicate]⟩,
    ⟨{ drained with cfg := { config with prog := [0x9000000000000000] }, mem := [] }, 0x9000000000000000, ?_, by decide, by decide⟩,
    ⟨{ drained with cfg := { config with prog := [0x6030000000000002] }, mem := [] }, 0x6030000000000002, ⟨0, 3, 0, 0, 2⟩, ?_,
      by decide, by decide, by decide⟩⟩
  · exact { witness_Inv_mid with }
  · exact { witness_Inv_mid with memInside := fun _ _ => rfl }
  · exact { witness_Inv_mid with
      portCount := rfl
      portsHoldLast := fun k hk => absurd hk (Nat.not_lt_zero k)
      historyInside := fun _ h => by cases h }
  all_goals exact {
    zeroRegister := by decide
    memCanonical := by decide
    memInside := fun _ _ => rfl
    portCount := by decide
    portsHoldLast := fun k hk => by
      have : ∀ j < 2, drained.port j = lastOutput drained.outLog j := by decide
      exact this k hk
    historyInside := fun _ h => by cases h
    historyOrdered := .nil
    ifidFromProgram := fun _ h => by cases h
    idexFromProgram := fun _ h => by cases h
    exmemFromProgram := fun _ h => by cases h
    memwbFromProgram := fun _ h => by cases h
    interlock := fun _ _ h => by cases h
    retiredLeCycles := by decide }

theorem mid_steps : mid.running = true ∧ step mid = .next (nextOf mid) := step_of_performs (by decide)
theorem mid_steps_twice : (nextOf mid).running = true ∧ step (nextOf mid) = .next (nextOf (nextOf mid)) :=
  step_of_performs (by decide)

/-- The program at reset, and the states its first cycles lead to. -/
def s0 : State := State.resetWith config
def s1 : State := { s0 with pc := 1, ifid := some ⟨0, .set ⟨1, 0, 0, 0, 7⟩⟩, cycles := 1 }
def s2 : State := { s0 with
  pc := 2
  ifid := some ⟨1, .store ⟨0, 1, 0, 0, 4⟩⟩
  idex := some ⟨0, .set ⟨1, 0, 0, 0, 7⟩, 0, 0, 0⟩
  cycles := 2 }
def s3 : State := { s0 with
  pc := 3
  ifid := some ⟨2, .load ⟨2, 0, 0, 0, 4⟩⟩
  idex := some ⟨1, .store ⟨0, 1, 0, 0, 4⟩, 0, 0, 0⟩
  exmem := some ⟨0, .set ⟨1, 0, 0, 0, 7⟩, 7, 0⟩
  cycles := 3 }

/-- The first three cycles, by R205 to R213. -/
theorem test_first_cycles : step s0 = .next s1 ∧ step s1 = .next s2 ∧ step s2 = .next s3 := ⟨rfl, rfl, rfl⟩

theorem witness_StepExecutesTheInstructionInIdEx :
    (mid.running = true ∧ mid.idex.isSome = true) ∧ s0.running = true ∧ s0.idex = none := by decide

theorem witness_FetchedInstructionExecutesTwoCyclesLater :
    progInstr s0.cfg s0.pc = some (.set ⟨1, 0, 0, 0, 7⟩) ∧
    s0.running = true ∧ takenTarget s0 = none ∧ hazard s0 = false ∧ step s0 = .next s1 ∧
    s1.running = true ∧ takenTarget s1 = none ∧ hazard s1 = false ∧ step s1 = .next s2 ∧ s2.running = true :=
  ⟨by decide, by decide, by decide, by decide, rfl, by decide, by decide, by decide, rfl, by decide⟩

theorem witness_ParametersNeverChange : step mid = .next (nextOf mid) := mid_steps.2

/-- MEM/WB occupied, empty, and the last cycle the cap allows. -/
theorem witness_CountersAdvance :
    (mid.running = true ∧ step mid = .next (nextOf mid) ∧ mid.memwb.isSome = true) ∧
    (s0.running = true ∧ step s0 = .next (nextOf s0) ∧ s0.memwb = none) ∧
    ∃ s : State, s.running = true ∧ step s = .next (nextOf s) ∧ s.cycles + 1 = s.cfg.maxCycles := by
  have h0 := step_of_performs (s := s0) (by decide)
  have h1 := step_of_performs (s := { mid with cfg := { config with maxCycles := 5 } }) (by decide)
  exact ⟨⟨mid_steps.1, mid_steps.2, by decide⟩, ⟨h0.1, h0.2, by decide⟩, _, h1.1, h1.2, by decide⟩

/-- The instructions of each clause, with register 0, register 15 and the last port among their operands. -/
def wbCases : List Instr :=
  [.add ⟨0, 1, 2, 0, 0⟩, .add ⟨15, 1, 2, 0, 0⟩, .sub ⟨1, 1, 2, 0, 0⟩, .load ⟨0, 1, 0, 0, 0⟩, .load ⟨15, 1, 0, 0, 0⟩,
   .set ⟨0, 0, 0, 0, 1⟩, .set ⟨15, 0, 0, 0, 1⟩, .out ⟨0, 1, 0, 0, 0⟩, .out ⟨0, 1, 0, 0, 1⟩, .store ⟨1, 2, 0, 0, 0⟩,
   .beq ⟨0, 1, 2, 1, 0⟩, .jump ⟨0, 0, 0, 1, 0⟩, .nop ⟨1, 0, 0, 0, 0⟩]

theorem witness_WriteBackStep :
    (s0.running = true ∧ step s0 = .next (nextOf s0) ∧ s0.memwb = none) ∧
    ∀ i ∈ wbCases, (inWb i 5).running = true ∧ step (inWb i 5) = .next (nextOf (inWb i 5)) ∧
      (inWb i 5).memwb = some ⟨0, i, 5⟩ := by
  have h0 := step_of_performs (s := s0) (by decide)
  refine ⟨⟨h0.1, h0.2, rfl⟩, fun i hi => ?_⟩
  have h := step_of_performs (List.all_eq_true.mp (by decide : wbCases.all (fun i => performs (inWb i 5)) = true) i hi)
  exact ⟨h.1, h.2, rfl⟩

/-- A LOAD and a STORE of the first and the last word, misaligned ones beside them, and an ADD. -/
def memCases : List (Instr × Word) :=
  [(.load ⟨1, 2, 0, 0, 0⟩, 0), (.load ⟨1, 2, 0, 0, 0⟩, 12), (.load ⟨1, 2, 0, 0, 0⟩, -1), (.store ⟨1, 2, 0, 0, 0⟩, 0),
   (.store ⟨1, 2, 0, 0, 0⟩, 12), (.store ⟨1, 2, 0, 0, 0⟩, 17), (.add ⟨1, 2, 3, 0, 0⟩, 16)]

theorem witness_MemoryStep :
    (s0.running = true ∧ step s0 = .next (nextOf s0) ∧ s0.exmem = none) ∧
    ∀ c ∈ memCases, (inMem c.1 c.2 9).running = true ∧ step (inMem c.1 c.2 9) = .next (nextOf (inMem c.1 c.2 9)) ∧
      (inMem c.1 c.2 9).exmem = some ⟨0, c.1, c.2, 9⟩ := by
  have h0 := step_of_performs (s := s0) (by decide)
  refine ⟨⟨h0.1, h0.2, rfl⟩, fun c hc => ?_⟩
  have h := step_of_performs
    (List.all_eq_true.mp (by decide : memCases.all (fun c => performs (inMem c.1 c.2 9)) = true) c hc)
  exact ⟨h.1, h.2, rfl⟩

/-- Each clause at its boundary: misaligned by one below 0, the first and the last word of four, the first address past the
array, the highest and the lowest aligned addresses. -/
theorem witness_DataAccessMeaning :
    Memory.wf [(1, 42)] = true ∧ ((-1 : Word).toNat % 4 ≠ 0 ∧ (3 : Word).toNat % 4 ≠ 0) ∧
    ((0 : Nat) < 4 ∧ (0 : Word).toInt = 4 * ((0 : Nat) : Int)) ∧ ((3 : Nat) < 4 ∧ (12 : Word).toInt = 4 * ((3 : Nat) : Int)) ∧
    ((16 : Word).toNat % 4 = 0 ∧ 4 * ((4 : Nat) : Int) ≤ (16 : Word).toInt) ∧
    ((0x7FFFFFFC : Word).toNat % 4 = 0 ∧ 4 * ((4 : Nat) : Int) ≤ (0x7FFFFFFC : Word).toInt) ∧
    ((-4 : Word).toNat % 4 = 0 ∧ (-4 : Word).toInt < 0) ∧ ((0x80000000 : Word).toNat % 4 = 0 ∧ (0x80000000 : Word).toInt < 0) := by
  decide

/-- A taken BEQ with an instruction behind it. -/
def takenBeq : State := { alone (.beq ⟨0, 1, 2, 1, 0⟩) 0 5 5 with ifid := some ⟨7, .nop ⟨0, 0, 0, 0, 0⟩⟩ }
theorem takenBeq_steps : takenBeq.running = true ∧ step takenBeq = .next (nextOf takenBeq) := step_of_performs (by decide)

theorem witness_DecodeStep :
    (takenBeq.running = true ∧ step takenBeq = .next (nextOf takenBeq) ∧ (takenTarget takenBeq).isSome = true) ∧
    (s0.running = true ∧ step s0 = .next s1 ∧ s0.ifid = none) ∧
    (mid.running = true ∧ step mid = .next (nextOf mid) ∧ mid.ifid.isSome = true ∧ takenTarget mid = none ∧ hazard mid = true) ∧
    (s2.running = true ∧ step s2 = .next s3 ∧ s2.ifid.isSome = true ∧ takenTarget s2 = none ∧ hazard s2 = false) :=
  ⟨⟨takenBeq_steps.1, takenBeq_steps.2, by decide⟩, ⟨by decide, rfl, rfl⟩, ⟨mid_steps.1, mid_steps.2, by decide⟩,
    by decide, rfl, by decide⟩

/-- The last index of the program and the first past it. -/
theorem witness_FetchStep :
    (takenBeq.running = true ∧ step takenBeq = .next (nextOf takenBeq) ∧ takenTarget takenBeq = some 8) ∧
    (mid.running = true ∧ step mid = .next (nextOf mid) ∧ takenTarget mid = none ∧ stallSignal mid = true) ∧
    (∃ s : State, s.running = true ∧ step s = .next (nextOf s) ∧ takenTarget s = none ∧ stallSignal s = false ∧
      s.pc.toNat + 1 = s.cfg.prog.length) ∧
    ∃ s : State, s.running = true ∧ step s = .next (nextOf s) ∧ takenTarget s = none ∧ stallSignal s = false ∧
      s.pc.toNat = s.cfg.prog.length := by
  have h1 := step_of_performs (s := { inWb (.nop ⟨0, 0, 0, 0, 0⟩) 0 with pc := 8 }) (by decide)
  have h2 := step_of_performs (s := inWb (.nop ⟨0, 0, 0, 0, 0⟩) 0) (by decide)
  exact ⟨⟨takenBeq_steps.1, takenBeq_steps.2, by decide⟩, ⟨mid_steps.1, mid_steps.2, by decide⟩,
    ⟨_, h1.1, h1.2, by decide⟩, ⟨_, h2.1, h2.2, by decide⟩⟩

/-- Every opcode in the EX step with the pipeline around it occupied. -/
def inEx (i : Instr) : State := { mid with idex := some (slot i 1 2 3) }

theorem witness_ExecuteStepOfEveryOpcode :
    ∀ i ∈ program, (inEx i).idex = some (slot i 1 2 3) ∧ (slot i 1 2 3).instr = i ∧ (inEx i).cycleOk = true := by decide

theorem witness_ExecFrame :
    mid.mem.wf = true ∧ (∀ i ∈ program, exec i (inEx i) = .next (after (exec i (inEx i)) (inEx i))) ∧
    (∀ w, mid.memwb = some w → writesBack w.instr = true → w.instr.fields.rd ≠ 2) ∧
    (∀ w, mid.memwb = some w → isOut w.instr = false) ∧
    (∀ m, mid.exmem = some m → isStore m.instr = true → locate mid.cfg.memWords m.alu ≠ .word 0) := by
  refine ⟨by decide, fun i hi => ?_, fun w h => ?_, fun w h => ?_, fun m h => ?_⟩
  · exact next_of_isNext (List.all_eq_true.mp (by decide : program.all (fun i => isNext (exec i (inEx i))) = true) i hi) _
  all_goals cases h; decide

theorem witness_AddAlone : ∃ s e, AloneInEx s e ∧ e.instr = .add ⟨0, 1, 2, 0, 0⟩ := ⟨_, _, alone_alone _ 0 5 6, rfl⟩
theorem witness_SubAlone : ∃ s e, AloneInEx s e ∧ e.instr = .sub ⟨15, 1, 2, 0, 0⟩ := ⟨_, _, alone_alone _ 0 5 6, rfl⟩
theorem witness_SetAlone : ∃ s e, AloneInEx s e ∧ e.instr = .set ⟨1, 0, 0, 0, -1⟩ := ⟨_, _, alone_alone _ 0 5 6, rfl⟩
theorem witness_NopAlone : ∃ s e, AloneInEx s e ∧ e.instr = .nop ⟨1, 2, 3, 4, 5⟩ := ⟨_, _, alone_alone _ 0 5 6, rfl⟩

/-- The three kinds of address, at the last word and at the first address past it. -/
theorem witness_LoadAlone :
    (∃ s e f k, AloneInEx s e ∧ e.instr = .load f ∧ locate s.cfg.memWords (e.va + f.imm) = .word k) ∧
    (∃ s e f, AloneInEx s e ∧ e.instr = .load f ∧ locate s.cfg.memWords (e.va + f.imm) = .misaligned) ∧
    (∃ s e f, AloneInEx s e ∧ e.instr = .load f ∧ locate s.cfg.memWords (e.va + f.imm) = .outside) :=
  ⟨⟨_, _, ⟨4, 1, 0, 0, 4⟩, 3, alone_alone _ 0 8 0, rfl, by decide⟩, ⟨_, _, ⟨4, 1, 0, 0, 5⟩, alone_alone _ 0 8 0, rfl, by decide⟩,
    ⟨_, _, ⟨4, 1, 0, 0, 8⟩, alone_alone _ 0 8 0, rfl, by decide⟩⟩

theorem witness_StoreAlone :
    (∃ s e f k, AloneInEx s e ∧ e.instr = .store f ∧ locate s.cfg.memWords (e.vd + f.imm) = .word k) ∧
    (∃ s e f, AloneInEx s e ∧ e.instr = .store f ∧ locate s.cfg.memWords (e.vd + f.imm) = .misaligned) ∧
    (∃ s e f, AloneInEx s e ∧ e.instr = .store f ∧ locate s.cfg.memWords (e.vd + f.imm) = .outside) :=
  ⟨⟨_, _, ⟨1, 4, 0, 0, -8⟩, 0, alone_alone _ 8 7 0, rfl, by decide⟩, ⟨_, _, ⟨1, 4, 0, 0, -9⟩, alone_alone _ 8 7 0, rfl, by decide⟩,
    ⟨_, _, ⟨1, 4, 0, 0, -12⟩, alone_alone _ 8 7 0, rfl, by decide⟩⟩

/-- A BEQ to past the end that is taken, and one that is not. -/
theorem witness_BeqAlone :
    ∀ vb ∈ [(5 : Word), 6], ∃ s e f next, AloneInEx s e ∧ e.instr = .beq f ∧ e.vb = vb ∧
      next = (if e.va = e.vb then (labelTarget s.cfg f.lab).getD s.pc else s.pc) ∧ inBounds s.cfg next = false := by
  intro vb _
  refine ⟨_, _, ⟨0, 1, 2, 2, 0⟩, 9, alone_alone _ 0 5 vb, rfl, rfl, ?_, (alone_alone _ 0 5 vb).drained⟩
  show (9 : InstrIndex) = if (5 : Word) = vb then 9 else 9
  rw [ite_self]

/-- A label that is found, and one that is not. -/
theorem witness_JumpAlone :
    ∀ lab ∈ [(2 : Label), 3], ∃ s e f next, AloneInEx s e ∧ e.instr = .jump f ∧ f.lab = lab ∧
      next = (labelTarget s.cfg f.lab).getD s.pc ∧ inBounds s.cfg next = false := by
  intro lab h
  refine ⟨_, _, ⟨0, 0, 0, lab, 0⟩, 9, alone_alone _ 0 0 0, rfl, rfl, ?_, (alone_alone _ 0 0 0).drained⟩
  simp only [List.mem_cons, List.not_mem_nil, or_false] at h
  rcases h with rfl | rfl <;> decide

/-- The last port. -/
theorem witness_OutAlone : ∃ (s : State) (e : IdEx) (f : Fields) (k : Nat),
    AloneInEx s e ∧ e.instr = .out f ∧ f.imm.toInt = k ∧ k < s.cfg.nPorts :=
  ⟨_, _, ⟨0, 3, 0, 0, 1⟩, 1, alone_alone _ 0 5 0, rfl, by decide, by decide⟩

/-- Each producer, in register 0 and in register 15, through three cycles. -/
def producers : List Instr :=
  [.add ⟨0, 1, 2, 0, 0⟩, .add ⟨15, 1, 2, 0, 0⟩, .sub ⟨1, 1, 2, 0, 0⟩, .set ⟨2, 0, 0, 0, 9⟩, .load ⟨15, 1, 0, 0, 0⟩]

theorem witness_ResultReachesDestination :
    ∀ i ∈ producers, (alone i 0 4 2).idex = some (slot i 0 4 2) ∧
      (alone i 0 4 2).running = true ∧ step (alone i 0 4 2) = .next (nextOf (alone i 0 4 2)) ∧
      (nextOf (alone i 0 4 2)).running = true ∧
      step (nextOf (alone i 0 4 2)) = .next (nextOf (nextOf (alone i 0 4 2))) ∧
      (nextOf (nextOf (alone i 0 4 2))).running = true ∧
      step (nextOf (nextOf (alone i 0 4 2))) = .next (nextOf (nextOf (nextOf (alone i 0 4 2)))) := by
  intro i hi
  have h := List.all_eq_true.mp (by decide : producers.all (fun i => performs (alone i 0 4 2) &&
    performs (nextOf (alone i 0 4 2)) && performs (nextOf (nextOf (alone i 0 4 2)))) = true) i hi
  simp only [Bool.and_eq_true] at h
  have h1 := step_of_performs h.1.1
  have h2 := step_of_performs h.1.2
  have h3 := step_of_performs h.2
  exact ⟨rfl, h1.1, h1.2, h2.1, h2.2, h3.1, h3.2⟩

theorem witness_LoadUseStalls : ∃ (e : IdEx) (d : IfId) (f : Fields),
    mid.running = true ∧ mid.idex = some e ∧ mid.ifid = some d ∧ e.instr = .load f ∧ f.rd ∈ srcs d.instr ∧
    step mid = .next (nextOf mid) :=
  ⟨_, _, ⟨2, 0, 0, 0, 4⟩, mid_steps.1, rfl, rfl, rfl, by decide, mid_steps.2⟩

theorem witness_OnlyLoadUseStalls : stallSignal mid = true := by decide

theorem witness_NoHazardTwiceRunning : hazard mid = true ∧ mid.running = true ∧ step mid = .next (nextOf mid) :=
  ⟨by decide, mid_steps.1, mid_steps.2⟩

theorem witness_LoadUseConsumerGetsTheLoadedWord : ∃ (e : IdEx) (d : IfId) (f : Fields),
    mid.running = true ∧ mid.idex = some e ∧ mid.ifid = some d ∧ e.instr = .load f ∧ f.rd ∈ srcs d.instr ∧
    (mid.cfg.fwdZeroReg = .forward ∨ f.rd ≠ 0) ∧ step mid = .next (nextOf mid) ∧ (nextOf mid).running = true ∧
    step (nextOf mid) = .next (nextOf (nextOf mid)) ∧ d.instr.fields.ra = f.rd :=
  ⟨_, _, ⟨2, 0, 0, 0, 4⟩, mid_steps.1, rfl, rfl, rfl, by decide, by decide, mid_steps.2, mid_steps_twice.1,
    mid_steps_twice.2, rfl⟩

/-- A consumer of register 1 behind the producers `w` in MEM/WB and `m` in EX/MEM. -/
def consumer (z : FwdZeroReg) (r : RegIndex) (m : Option ExMem) (w : Option MemWb) : State :=
  { alone (.add ⟨3, r, 2, 0, 0⟩) 0 5 6 with cfg := { config with fwdZeroReg := z }, exmem := m, memwb := w }

/-- The four cases: a producer in MEM/WB, one in EX/MEM, none, and register 0 with forwarding suppressed. -/
theorem witness_ForwardingPriority :
    (∃ s w, s = consumer .forward 1 none (some w) ∧ writesBack w.instr = true ∧ w.instr.fields.rd = 1) ∧
    (∃ s m, s = consumer .forward 1 (some m) none ∧ writesBack m.instr = true ∧ isLoad m.instr = false ∧
      m.instr.fields.rd = 1) ∧
    (consumer .forward 1 none none).exmem = none ∧
    ∃ s w, s = consumer .suppress 0 none (some w) ∧ writesBack w.instr = true ∧ w.instr.fields.rd = 0 ∧
      s.cfg.fwdZeroReg = .suppress :=
  ⟨⟨_, ⟨0, .set ⟨1, 0, 0, 0, 7⟩, 7⟩, rfl, by decide⟩, ⟨_, ⟨0, .set ⟨1, 0, 0, 0, 7⟩, 7, 0⟩, rfl, by decide⟩, rfl,
    ⟨_, ⟨0, .set ⟨0, 0, 0, 0, 7⟩, 7⟩, rfl, by decide⟩⟩

/-- Vector F1: `ADD R1,R2,R3` with `ADD R4,R1,R5` directly behind it. -/
def backToBack : State := { alone (.add ⟨1, 2, 3, 0, 0⟩) 0 5 6 with ifid := some ⟨1, .add ⟨4, 1, 5, 0, 0⟩⟩ }

theorem witness_BackToBackSumIsForwarded :
    backToBack.running = true ∧ backToBack.idex = some (slot (.add ⟨1, 2, 3, 0, 0⟩) 0 5 6) ∧
    backToBack.ifid = some ⟨1, .add ⟨4, 1, 5, 0, 0⟩⟩ ∧ (1 : RegIndex) = 1 ∧ (5 : RegIndex) ≠ 1 ∧
    (backToBack.cfg.fwdZeroReg = .forward ∨ (1 : RegIndex) ≠ 0) ∧
    (∀ m, backToBack.exmem = some m → writesBack m.instr = false) ∧ step backToBack = .next (nextOf backToBack) := by
  have h := step_of_performs (s := backToBack) (by decide)
  exact ⟨h.1, rfl, rfl, rfl, by decide, by decide, fun m hm => (by cases hm), h.2⟩

theorem witness_ZeroRegisterSettingsAgree :
    (∀ w ∈ [encode (.set ⟨1, 0, 0, 0, 7⟩)], ∀ i, decode w = .ok i → writesBack i = true → i.fields.rd ≠ 0) ∧
    ∃ s, Host.Core.run core 1 (State.resetWith { config with prog := [encode (.set ⟨1, 0, 0, 0, 7⟩)] }) = .next s := by
  refine ⟨fun w hw i hi _ => ?_, _, rfl⟩
  rw [List.mem_singleton] at hw
  subst hw
  have : i = .set ⟨1, 0, 0, 0, 7⟩ := by
    have h : decode (encode (.set ⟨1, 0, 0, 0, 7⟩)) = .ok (.set ⟨1, 0, 0, 0, 7⟩) := by decide
    rw [h] at hi
    exact (Except.ok.inj hi).symm
  subst this
  decide

theorem witness_OnlyTransfersRedirect :
    (∀ e f, s0.idex = some e → e.instr ≠ .beq f ∧ e.instr ≠ .jump f) ∧ step s0 = .next s1 ∧
    ∀ e f, mid.idex = some e → e.instr ≠ .beq f ∧ e.instr ≠ .jump f := by
  refine ⟨fun e f h => (by cases h), rfl, fun e f h => ?_⟩
  cases h
  exact ⟨by simp, by simp⟩

theorem witness_BeqResolves : ∃ (s : State) (e : IdEx) (f : Fields) (a : InstrIndex),
    s.idex = some e ∧ e.instr = .beq f ∧ s.cycleOk = true ∧ (forward s e).fa = (forward s e).fb ∧
    labelTarget s.cfg f.lab = some a :=
  ⟨alone (.beq ⟨0, 1, 2, 1, 0⟩) 0 5 5, _, ⟨0, 1, 2, 1, 0⟩, 8, rfl, rfl, by decide, by decide, by decide⟩

theorem witness_JumpResolves : ∃ (s : State) (e : IdEx) (f : Fields) (a : InstrIndex),
    s.idex = some e ∧ e.instr = .jump f ∧ s.cycleOk = true ∧ labelTarget s.cfg f.lab = some a :=
  ⟨alone (.jump ⟨0, 0, 0, 2, 0⟩) 0 5 5, _, ⟨0, 0, 0, 2, 0⟩, 9, rfl, rfl, by decide, by decide⟩

/-- A BEQ of unequal values, and a JUMP to a label that is not in the table. -/
theorem witness_UntakenTransferActsAsNop :
    ∀ i ∈ [Instr.beq ⟨0, 1, 2, 1, 0⟩, .jump ⟨0, 0, 0, 3, 0⟩], takenTarget (alone i 0 5 6) = none ∧
      exec i (alone i 0 5 6) = .next (after (exec i (alone i 0 5 6)) (alone i 0 5 6)) ∧
      exec (.nop i.fields) (alone (.nop i.fields) 0 5 6) =
        .next (after (exec (.nop i.fields) (alone (.nop i.fields) 0 5 6)) (alone (.nop i.fields) 0 5 6)) := by
  intro i hi
  have h := List.all_eq_true.mp (by decide : [Instr.beq ⟨0, 1, 2, 1, 0⟩, .jump ⟨0, 0, 0, 3, 0⟩].all (fun i =>
    (takenTarget (alone i 0 5 6)).isNone && isNext (exec i (alone i 0 5 6)) &&
      isNext (exec (.nop i.fields) (alone (.nop i.fields) 0 5 6))) = true) i hi
  simp only [Bool.and_eq_true, Option.isNone_iff_eq_none] at h
  exact ⟨h.1.1, next_of_isNext h.1.2 _, next_of_isNext h.2 _⟩

/-- A JUMP to the last index of the program, and one past its end. -/
theorem witness_TakenTransferLeavesTwoBubbles :
    ∀ c ∈ [((1 : Label), (8 : InstrIndex)), (2, 9)], ∃ s,
      takenTarget s = some c.2 ∧ s.running = true ∧ step s = .next (nextOf s) ∧ (nextOf s).running = true ∧
      step (nextOf s) = .next (nextOf (nextOf s)) ∧ (nextOf (nextOf s)).running = true ∧
      step (nextOf (nextOf s)) = .next (nextOf (nextOf (nextOf s))) ∧
      (c.2 = 8 → progInstr s.cfg c.2 = some (.jump ⟨0, 0, 0, 2, 0⟩)) ∧ (c.2 = 9 → inBounds s.cfg c.2 = false) := by
  intro c hc
  have h := List.all_eq_true.mp (by decide : [((1 : Label), (8 : InstrIndex)), (2, 9)].all (fun c =>
    let s := alone (.jump ⟨0, 0, 0, c.1, 0⟩) 0 0 0
    decide (takenTarget s = some c.2) && performs s && performs (nextOf s) && performs (nextOf (nextOf s))) = true) c hc
  simp only [Bool.and_eq_true, decide_eq_true_eq] at h
  have h1 := step_of_performs h.1.1.2
  have h2 := step_of_performs h.1.2
  have h3 := step_of_performs h.2
  refine ⟨_, h.1.1.1, h1.1, h1.2, h2.1, h2.2, h3.1, h3.2, fun h8 => ?_, fun h9 => ?_⟩
  · rw [h8]; show progInstr config 8 = _; decide
  · rw [h9]; show inBounds config 9 = _; decide

theorem witness_LoadBehindStoreReadsTheStoredWord : ∃ (m : ExMem) (e : IdEx) (f g : Fields),
    mid.mem.wf = true ∧ mid.exmem = some m ∧ m.instr = .store g ∧ mid.idex = some e ∧ e.instr = .load f ∧
    (forward mid e).fa + f.imm = m.alu ∧ locate mid.cfg.memWords m.alu = .word 1 ∧
    mid.running = true ∧ step mid = .next (nextOf mid) ∧ (nextOf mid).running = true ∧
    step (nextOf mid) = .next (nextOf (nextOf mid)) :=
  ⟨_, _, ⟨2, 0, 0, 0, 4⟩, ⟨0, 1, 0, 0, 4⟩, by decide, rfl, rfl, rfl, rfl, by decide, by decide, mid_steps.1, mid_steps.2,
    mid_steps_twice.1, mid_steps_twice.2⟩

theorem witness_RangeFaultExactly :
    (Inv outOfRange ∧ outOfRange.running = true ∧ step outOfRange = .fault (.memRange 16)) ∧
    Inv mid ∧ mid.running = true ∧ step mid ≠ .fault (.memRange 4) :=
  ⟨⟨witness_Inv_outOfRange, by decide, rfl⟩, witness_Inv_mid, mid_steps.1, by rw [mid_steps.2]; simp⟩

/-- A state at its cap, which every step holds, with an OUT in MEM/WB and a STORE in EX/MEM. -/
def cappedState : State := { inWb (.out ⟨0, 1, 0, 0, 1⟩) 5 with
  exmem := some ⟨0, .store ⟨0, 1, 0, 0, 4⟩, 4, 7⟩
  cycles := 20 }

theorem test_capped_state_holds : step cappedState = .next cappedState := rfl
/-- R49, R218: no event is signalled and no access presented where no cycle is performed. -/
theorem test_capped_state_signals_nothing : commitEvent cappedState = none ∧ dataPort cappedState = none := by decide
/-- R48: the views show the latches with all they hold. -/
theorem test_stageViews : stageViews mid =
    ⟨some (.sub ⟨4, 3, 1, 0, 0⟩), some ⟨3, .add ⟨3, 2, 1, 0, 0⟩⟩, some ⟨2, .load ⟨2, 0, 0, 0, 4⟩, 0, 0, 0⟩,
      some ⟨1, .store ⟨0, 1, 0, 0, 4⟩, 4, 7⟩, some ⟨0, .set ⟨1, 0, 0, 0, 7⟩, 7⟩⟩ := by decide

/-- A cycle with a commit event, one without, and a state that holds. -/
theorem witness_CommitEventsMakeTheHistory :
    (∃ s, step s = .next (nextOf s) ∧ commitEvent s = some (1, 5)) ∧
    (step mid = .next (nextOf mid) ∧ commitEvent mid = none) ∧ step cappedState = .next cappedState :=
  ⟨⟨inWb (.out ⟨0, 1, 0, 0, 1⟩) 5, (step_of_performs (by decide)).2, by decide⟩, ⟨mid_steps.2, by decide⟩,
    test_capped_state_holds⟩

/-- A cycle with a write access, one with a read access of the last word, one without, and a state that holds. -/
theorem witness_DataPortShowsTheAccess :
    (mid.mem.wf = true ∧ step mid = .next (nextOf mid) ∧ dataPort mid = some (.write 4 7)) ∧
    (∃ s, s.mem.wf = true ∧ step s = .next (nextOf s) ∧ dataPort s = some (.read 12)) ∧
    (s0.mem.wf = true ∧ step s0 = .next s1 ∧ dataPort s0 = none) ∧
    cappedState.mem.wf = true ∧ step cappedState = .next cappedState ∧ dataPort cappedState = none :=
  ⟨⟨by decide, mid_steps.2, by decide⟩,
    ⟨inMem (.load ⟨1, 2, 0, 0, 0⟩) 12 0, by decide, (step_of_performs (by decide)).2, by decide⟩,
    ⟨by decide, rfl, by decide⟩, by decide, test_capped_state_holds, by decide⟩

theorem witness_EveryStepKeepsTheInvariant : Inv mid ∧ step mid = .next (nextOf mid) := ⟨witness_Inv_mid, mid_steps.2⟩

theorem witness_WellFormedRunsStopOnlyByRangeFault : loadProblem config = none := by decide

theorem witness_FirstInstructionRetiresInCycleFive :
    progInstr config 0 = some (.set ⟨1, 0, 0, 0, 7⟩) ∧ 5 ≤ config.maxCycles ∧ step s0 = .next s1 ∧ step s1 = .next s2 ∧
    step s2 = .next s3 ∧ step s3 = .next mid ∧ step mid = .next (nextOf mid) :=
  ⟨by decide, by decide, rfl, rfl, rfl, rfl, mid_steps.2⟩

theorem witness_EmptyProgramRunsZeroCycles : ({} : Config).prog = [] ∧ loadProblem {} = none := by decide

/-- A run of one NOP with cap `n`. -/
def oneNop (n : Nat) : State := State.resetWith { prog := [0x8000000000000000], maxCycles := n }

/-- A run that completes, one that completes exactly at its cap, and one that is stopped by it. -/
theorem witness_DriverReportsHowTheRunEnded :
    (∃ t, (oneNop 9).cycles ≤ 9 ∧ drive (oneNop 9) = .next (t, some .naturalCompletion)) ∧
    (∃ t, (oneNop 5).cycles ≤ 5 ∧ drive (oneNop 5) = .next (t, some .naturalCompletion)) ∧
    ∃ t, (oneNop 1).cycles ≤ 1 ∧ drive (oneNop 1) = .next (t, some .forcedStop) := by
  refine ⟨⟨_, by decide, rfl⟩, ⟨_, by decide, rfl⟩, ⟨_, by decide, rfl⟩⟩

/-- A state whose step keeps the invariant, and one whose step is the range fault. -/
theorem witness_AcceptedStepKeepsInvariantOrRangeFaults :
    (Inv mid ∧ loadProblem mid.cfg = none) ∧ Inv outOfRange ∧ loadProblem outOfRange.cfg = none :=
  ⟨⟨witness_Inv_mid, by decide⟩, witness_Inv_outOfRange, by decide⟩

/-- A cycle that loses a slot to a stall, one that loses two to a taken transfer, one that loses one past the end, and one that
loses none. -/
theorem witness_EveryCycleIsAccountedFor :
    (mid.running = true ∧ step mid = .next (nextOf mid) ∧ mid.lostSlots = 1) ∧
    (takenBeq.running = true ∧ step takenBeq = .next (nextOf takenBeq) ∧ takenBeq.lostSlots = 2) ∧
    (∃ s : State, s.running = true ∧ step s = .next (nextOf s) ∧ s.pc.toNat = s.cfg.prog.length ∧ s.lostSlots = 1) ∧
    s0.running = true ∧ step s0 = .next s1 ∧ s0.lostSlots = 0 := by
  have h := step_of_performs (s := inWb (.nop ⟨0, 0, 0, 0, 0⟩) 0) (by decide)
  exact ⟨⟨mid_steps.1, mid_steps.2, by decide⟩, ⟨takenBeq_steps.1, takenBeq_steps.2, by decide⟩, ⟨_, h.1, h.2, by decide⟩,
    by decide, rfl, by decide⟩

/-- A LOAD with its consumer behind it and a transfer that discards an instruction, with bits in the fields they do not use;
label 1 is index 4. -/
def journey : Config where
  prog := [0x2105000900000000, 0x6310000000000000, 0x5700000100000000, 0x8000000000000000, 0x7220000000000005]
  labels := [(1, 4)]

/-- Where its run ends, by R370 after 4 + 4 + 1 + 2 cycles. -/
def journeyEnd : State := { State.resetWith journey with
  pc := 5
  regs := (Vector.replicate 16 0).set 2 5
  cycles := 11
  retired := 4
  outLog := [⟨7, 0, 0⟩] }

theorem journey_runs : Host.Core.run core 11 (State.resetWith journey) = .next journeyEnd := rfl

theorem witness_CycleCountOfACompletedRun :
    journey.prog ≠ [] ∧ Host.Core.run core 11 (State.resetWith journey) = .next journeyEnd ∧ journeyEnd.done = true :=
  ⟨by decide, journey_runs, by decide⟩

theorem witness_PipelineMatchesTheSequentialReading :
    Host.Core.run core 11 (State.resetWith journey) = .next journeyEnd ∧ journeyEnd.done = true ∧
    hazardPatternFree journey (cycleTrace 11 (State.resetWith journey)) = true := ⟨journey_runs, by decide, by decide⟩

/-- Pattern 2 of R224 asks for a result that is not 0, and looks two executed instructions ahead over a bubble. -/
theorem test_pattern_two :
    hasZeroProducer [⟨0, .set ⟨0, 0, 0, 0, 9⟩, 9⟩, ⟨1, .nop ⟨0, 0, 0, 0, 0⟩, 0⟩, ⟨2, .out ⟨0, 0, 0, 0, 0⟩, 9⟩] = true ∧
    hasZeroProducer [⟨0, .set ⟨0, 0, 0, 0, 0⟩, 0⟩, ⟨1, .out ⟨0, 0, 0, 0, 0⟩, 0⟩] = false := by decide

theorem witness_UnusedFieldsChangeNothing :
    Host.Core.run core 11 (State.resetWith journey) = .next journeyEnd ∧ journey.prog.map zeroUnusedWord ≠ journey.prog :=
  ⟨journey_runs, by decide⟩

/-- An ADD and a LOAD with destinations other than register 0, in the program and in every latch. -/
def noZeroState : State := { State.resetWith { prog := [0x0312000000000000] } with
  pc := 1
  ifid := some ⟨0, .add ⟨3, 1, 2, 0, 0⟩⟩
  idex := some ⟨0, .add ⟨3, 1, 2, 0, 0⟩, 0, 0, 0⟩
  exmem := some ⟨0, .load ⟨1, 2, 0, 0, 0⟩, 4, 0⟩
  memwb := some ⟨0, .add ⟨3, 1, 2, 0, 0⟩, 5⟩ }

theorem witness_StepCommutesWithZeroSetting : NoZeroResults noZeroState ∧ step noZeroState = .next (nextOf noZeroState) where
  left := {
    program := fun w hw i hi => by
      rw [List.mem_singleton.mp hw, test_decode_add] at hi
      cases hi
      unfold avoidsZero; decide
    ifid := fun d h => by cases h; unfold avoidsZero; decide
    idex := fun e h => by cases h; unfold avoidsZero; decide
    exmem := fun m h => by cases h; unfold avoidsZero; decide
    memwb := fun w h => by cases h; unfold avoidsZero; decide }
  right := (step_of_performs (by decide)).2

/-- A SET in ID/EX whose unused operand values differ, with bits in its unused fields. -/
def unusedLeft : State := { State.resetWith { prog := [0x7220000000000005] } with
  pc := 1
  idex := some ⟨0, .set ⟨2, 2, 0, 0, 5⟩, 1, 2, 3⟩ }
def unusedRight : State := { State.resetWith { prog := [0x7200000000000005] } with
  pc := 1
  idex := some ⟨0, .set ⟨2, 0, 0, 0, 5⟩, 1, 7, 3⟩ }

theorem witness_StepIgnoresUnusedFields :
    SameButUnused unusedLeft unusedRight ∧ step unusedLeft = .next (nextOf unusedLeft) where
  left := {
    cfg := by decide
    pc := rfl
    regs := rfl
    mem := rfl
    ports := rfl
    ifid := rfl
    idex := .some ⟨rfl, rfl, trivial⟩
    exmem := rfl
    memwb := rfl
    cycles := rfl
    retired := rfl
    outLog := rfl }
  right := (step_of_performs (by decide)).2

end Sys2Proof.Tests
end

/-! PROOF. The statements about the machine's state (10_state.md): what one performed cycle does to each piece of state, the
output history, the data port, reset, and the invariant. -/

namespace Sys2Proof.Machine

/-! ### One cycle, field by field -/

section Cycle

variable {s t : State}

/-- All a step can do, with the two cases excluding one another: hold the state, or perform its cycle (R49, R218). -/
theorem step_holds_or_runs (h : step s = .next t) : (s.running = false ∧ t = s) ∨ s.running = true := by
  cases hr : s.running with
  | false => exact .inl ⟨rfl, step_holds hr h⟩
  | true => exact .inr rfl

/-- The stages of a performed cycle in the fields of its next state; the rest of that state is what the WB step leaves. -/
theorem cycle_stages (hr : s.running = true) (h : step s = .next t) :
    ∃ u, wbStep s = .next u ∧ memStep s = .next (t.mem, t.memwb) ∧
      ifStep s (takenTarget s) = .next (t.ifid, t.pc) ∧
      t.idex = idStep s t.regs (takenTarget s).isSome ∧ t.exmem = nextExMem s ∧ t.cycles = s.cycles + 1 ∧
      t.cfg = u.cfg ∧ t.regs = u.regs ∧ t.ports = u.ports ∧ t.outLog = u.outLog ∧ t.retired = u.retired := by
  rw [step_of_running hr] at h
  obtain ⟨u, p, f, hu, hp, hf, rfl⟩ := finishCycle_next.mp h
  exact ⟨u, hu, hp, hf, rfl, rfl, rfl, rfl, rfl, rfl, rfl, rfl⟩

theorem cycle_cfg (hr : s.running = true) (h : step s = .next t) : t.cfg = s.cfg := by
  obtain ⟨u, hu, -, -, -, -, -, hcfg, -⟩ := cycle_stages hr h
  exact hcfg.trans (wbStep_frame hu).1

theorem cycle_cycles (hr : s.running = true) (h : step s = .next t) : t.cycles = s.cycles + 1 := by
  obtain ⟨-, -, -, -, -, -, hcycles, -⟩ := cycle_stages hr h
  exact hcycles

theorem cycle_reg_zero (hr : s.running = true) (h : step s = .next t) : t.reg 0 = 0 := by
  obtain ⟨u, hu, -, -, -, -, -, -, hregs, -⟩ := cycle_stages hr h
  rw [State.reg, hregs]
  exact wbStep_zero hu

theorem cycle_memStep (hr : s.running = true) (h : step s = .next t) : memStep s = .next (t.mem, t.memwb) := by
  obtain ⟨-, -, hmem, -⟩ := cycle_stages hr h
  exact hmem

theorem cycle_ifStep (hr : s.running = true) (h : step s = .next t) :
    ifStep s (takenTarget s) = .next (t.ifid, t.pc) := by
  obtain ⟨-, -, -, hif, -⟩ := cycle_stages hr h
  exact hif

theorem cycle_idex (hr : s.running = true) (h : step s = .next t) :
    t.idex = idStep s t.regs (takenTarget s).isSome := by
  obtain ⟨-, -, -, -, hidex, -⟩ := cycle_stages hr h
  exact hidex

theorem cycle_exmem (hr : s.running = true) (h : step s = .next t) : t.exmem = nextExMem s := by
  obtain ⟨-, -, -, -, -, hexmem, -⟩ := cycle_stages hr h
  exact hexmem

/-- The WB step counts the occupant of MEM/WB, whatever its opcode (R195). -/
theorem wbStep_retired {u : State} (h : wbStep s = .next u) :
    u.retired = s.retired + (if s.memwb.isSome then 1 else 0) := by
  obtain ⟨hw, rfl⟩ | ⟨w, hw, ⟨-, rfl⟩ | ⟨-, k, -, rfl⟩ | ⟨-, -, rfl⟩⟩ := wbStep_next h <;> simp [hw]

theorem cycle_retired (hr : s.running = true) (h : step s = .next t) :
    t.retired = s.retired + (if s.memwb.isSome then 1 else 0) := by
  obtain ⟨u, hu, -, -, -, -, -, -, -, -, -, hretired⟩ := cycle_stages hr h
  exact hretired.trans (wbStep_retired hu)

/-! ### The latches: where an occupant comes from -/

/-- An occupant of ID/EX was in IF/ID, in a cycle without a transfer and without a hazard (R205, R206, R207). -/
theorem idStep_eq_some {x : RegFile} {taken : Bool} {e : IdEx} (h : idStep s x taken = some e) :
    ∃ d, s.ifid = some d ∧ taken = false ∧ hazard s = false ∧ e = capture x d.pc d.instr := by
  unfold idStep at h
  split at h
  · cases h
  · rename_i d hd
    split at h
    · cases h
    · rename_i hn
      rw [Bool.or_eq_true, not_or, Bool.not_eq_true, Bool.not_eq_true] at hn
      exact ⟨d, hd, hn.1, hn.2, (Option.some.inj h).symm⟩

/-- An occupant of EX/MEM was in ID/EX (R201). -/
theorem nextExMem_eq_some {m : ExMem} (h : nextExMem s = some m) :
    ∃ e, s.idex = some e ∧ m.pc = e.pc ∧ m.instr = e.instr := by
  unfold nextExMem at h
  split at h
  · rename_i e he
    cases h
    exact ⟨e, he, rfl, rfl⟩
  · cases h

/-- An occupant of MEM/WB was in EX/MEM (R198). -/
theorem memStep_occupant {m : Memory} {w : MemWb} (h : memStep s = .next (m, some w)) :
    ∃ x, s.exmem = some x ∧ w.pc = x.pc ∧ w.instr = x.instr := by
  obtain ⟨-, hp⟩ | ⟨x, hx, ⟨-, v, -, hp⟩ | ⟨-, m', -, hp⟩ | ⟨-, -, hp⟩⟩ := memStep_next h <;> cases hp
  all_goals exact ⟨x, hx, rfl, rfl⟩

/-- An occupant of IF/ID was held there, or the program has it at its index (R210, R211, R213). -/
theorem ifStep_occupant {r : Option InstrIndex} {d : IfId} {pc : InstrIndex}
    (h : ifStep s r = .next (some d, pc)) : s.ifid = some d ∨ progInstr s.cfg d.pc = some d.instr := by
  obtain ⟨a, -, hf⟩ | ⟨-, -, hf⟩ | ⟨-, -, hf⟩ := ifStep_next h
  · cases hf
  · exact .inl (Prod.mk.inj hf).1.symm
  · obtain ⟨-, hf⟩ | ⟨i, hi, hf⟩ := fetch_next hf <;> cases hf
    exact .inr hi

/-- Without a hazard, what moves from IF/ID to ID/EX names no destination of a LOAD that moves to EX/MEM (R133). -/
theorem not_mem_srcs_of_no_hazard {e : IdEx} {d : IfId} (he : s.idex = some e) (hd : s.ifid = some d)
    (hh : hazard s = false) (hl : isLoad e.instr = true) : e.instr.fields.rd ∉ srcs d.instr := by
  simpa [hazard, he, hd, hl] using hh

/-! ### The output ports and the history -/

theorem writesBack_not_isOut {i : Instr} (h : writesBack i = true) : isOut i = false :=
  Bool.eq_false_iff.mpr fun ho => Bool.false_ne_true ((isOut_not_writesBack ho).symm.trans h)

/-- What a cycle does to ports and history: the signalled commit event, or nothing (R27, R47, R195). -/
theorem cycle_outputs (hr : s.running = true) (h : step s = .next t) :
    (commitEvent s = none ∧ t.ports = s.ports ∧ t.outLog = s.outLog) ∨
    ∃ k v, commitEvent s = some (k, v) ∧ k < s.cfg.nPorts ∧ t.ports = s.ports.set k v ∧
      t.outLog = s.outLog ++ [⟨s.cycles + 1, k, v⟩] := by
  obtain ⟨u, hu, -, -, -, -, -, -, -, hports, hlog, -⟩ := cycle_stages hr h
  rw [hports, hlog]
  obtain ⟨hw, rfl⟩ | ⟨w, hw, ⟨hb, rfl⟩ | ⟨ho, k, hk, rfl⟩ | ⟨-, ho, rfl⟩⟩ := wbStep_next hu
  · exact .inl ⟨by simp [commitEvent, hw], rfl, rfl⟩
  · exact .inl ⟨by simp [commitEvent, presentedCommit, hw, writesBack_not_isOut hb], rfl, rfl⟩
  · exact .inr ⟨k, w.res, by simp [commitEvent, presentedCommit, hr, hw, ho, hk], (portIndex_eq_some.mp hk).2, rfl, rfl⟩
  · exact .inl ⟨by simp [commitEvent, presentedCommit, hw, ho], rfl, rfl⟩

end Cycle

/-- A port holds what it was last given; the others hold what they held. -/
theorem getD_set {l : List Word} {k : Nat} (hk : k < l.length) (v : Word) (j : Nat) :
    (l.set k v).getD j 0 = if k = j then v else l.getD j 0 := by
  by_cases hj : k = j
  · subst hj; simp [hk]
  · simp [hj, List.getElem?_set_ne hj]

/-- A commit at the end of the history is the last one to its port and no news to any other port. -/
theorem lastOutput_append (l : List OutCommit) (c : OutCommit) (k : Nat) :
    lastOutput (l ++ [c]) k = if c.port = k then c.value else lastOutput l k := by
  induction l with
  | nil => simp [lastOutput]
  | cons b l ih =>
    simp only [List.cons_append, lastOutput, ih]
    by_cases hc : c.port = k
    · simp [hc]
    · simp [hc, or_imp, forall_and]

/-! ### Data memory -/

/-- The MEM step writes no word outside the array (R28). -/
theorem memStep_inside {s : State} {p : Memory × Option MemWb} (h : memStep s = .next p) (hwf : s.mem.wf = true)
    (hin : ∀ k, s.cfg.memWords ≤ k → s.mem.read k = 0) : ∀ k, s.cfg.memWords ≤ k → p.1.read k = 0 := by
  intro k hk
  obtain ⟨-, rfl⟩ | ⟨m, -, ⟨-, v, -, rfl⟩ | ⟨-, m', hw, rfl⟩ | ⟨-, -, rfl⟩⟩ := memStep_next h
  · exact hin k hk
  · exact hin k hk
  · obtain ⟨-, rfl⟩ | ⟨j, hj, rfl⟩ := memWrite_next hw
    · exact hin k hk
    · have hjn := (locate_eq_word.mp hj).1
      rw [memory_read_write hwf, if_neg (by omega)]
      exact hin k hk
  · exact hin k hk

theorem isStore_not_isLoad {i : Instr} (h : isStore i = true) : isLoad i = false := by
  cases i <;> simp_all [isStore, isLoad]

/-- An aligned address is not treated as a misaligned one (R62). -/
theorem locate_ne_misaligned {n : Nat} {a : Word} (h : aligned a = true) : locate n a ≠ .misaligned :=
  fun hm => locate_eq_misaligned.mp hm ((aligned_iff a).mp h)

/-- A read that answers at an aligned address answers with a word of the array (R63). -/
theorem memRead_aligned {n : Nat} {m : Memory} {a v : Word} (ha : aligned a = true) (h : memRead n m a = .next v) :
    ∃ k, locate n a = .word k ∧ v = m.read k := by
  obtain ⟨hl, -⟩ | hk := memRead_next h
  · exact absurd hl (locate_ne_misaligned ha)
  · exact hk

/-- A write that answers at an aligned address writes a word of the array (R64). -/
theorem memWrite_aligned {n : Nat} {m m' : Memory} {a v : Word} (ha : aligned a = true)
    (h : memWrite n m a v = .next m') : ∃ k, locate n a = .word k ∧ m' = m.write k v := by
  obtain ⟨hl, -⟩ | hk := memWrite_next h
  · exact absurd hl (locate_ne_misaligned ha)
  · exact hk

/-- A LOAD's MEM step: the memory stays and the word read is the result (R198). -/
theorem memStep_load {s : State} {m : ExMem} {p : Memory × Option MemWb} (hm : s.exmem = some m)
    (hl : isLoad m.instr = true) (h : memStep s = .next p) :
    ∃ v, memRead s.cfg.memWords s.mem m.alu = .next v ∧ p = (s.mem, some ⟨m.pc, m.instr, v⟩) := by
  simp only [memStep, hm, hl, if_true] at h
  obtain ⟨v, hv, hp⟩ := andThen_eq_next.mp h
  cases hp
  exact ⟨v, hv, rfl⟩

/-- A STORE's MEM step: the memory after its write (R198). -/
theorem memStep_store {s : State} {m : ExMem} {p : Memory × Option MemWb} (hm : s.exmem = some m)
    (hs : isStore m.instr = true) (h : memStep s = .next p) :
    memWrite s.cfg.memWords s.mem m.alu m.sv = .next p.1 := by
  simp only [memStep, hm, isStore_not_isLoad hs, hs, Bool.false_eq_true, if_false, if_true] at h
  obtain ⟨m', hw, hp⟩ := andThen_eq_next.mp h
  cases hp
  exact hw

/-- A write to a misaligned address is dropped (R64). -/
theorem memWrite_misaligned {n : Nat} {m m' : Memory} {a v : Word} (ha : ¬ aligned a = true)
    (h : memWrite n m a v = .next m') : m' = m := by
  have hmis : locate n a = .misaligned := locate_eq_misaligned.mpr (mt (aligned_iff a).mpr ha)
  simpa [memWrite, hmis] using h.symm

/-- The data port shows an aligned STORE of the MEM step (R46). -/
theorem dataPort_of_store {s : State} {m : ExMem} (hr : s.running = true) (hm : s.exmem = some m)
    (hs : isStore m.instr = true) (ha : aligned m.alu = true) : dataPort s = some (.write m.alu m.sv) := by
  simp [dataPort, presentedAccess, hr, hm, hs, ha, isStore_not_isLoad hs]

/-- A MEM step that changes the memory is an aligned STORE's, and the data port shows it (R46). -/
theorem memStep_mem_eq_of_no_write {s : State} {p : Memory × Option MemWb} (hr : s.running = true)
    (h : memStep s = .next p) (hn : ∀ a v, dataPort s ≠ some (.write a v)) : p.1 = s.mem := by
  obtain ⟨-, rfl⟩ | ⟨m, hm, ⟨-, v, -, rfl⟩ | ⟨hs, m', hw, rfl⟩ | ⟨-, -, rfl⟩⟩ := memStep_next h
  · rfl
  · rfl
  · have hna : ¬ aligned m.alu = true := fun ha => hn m.alu m.sv (dataPort_of_store hr hm hs ha)
    exact memWrite_misaligned hna hw
  · rfl

/-- A shown read is answered with a word of the array, which is the LOAD's result (R46). -/
theorem cycle_read {s t : State} {a : Word} (h : step s = .next t) (hd : dataPort s = some (.read a)) :
    ∃ (m : ExMem) (k : Nat), s.exmem = some m ∧ m.alu = a ∧ a.toInt = 4 * (k : Int) ∧ k < s.cfg.memWords ∧
      dataAnswer s = some (s.mem.read k) ∧ t.memwb = some ⟨m.pc, m.instr, s.mem.read k⟩ := by
  obtain ⟨hr, m, hm, ha, ⟨hl, hacc⟩ | ⟨-, hacc⟩⟩ := dataPort_eq_some hd <;> cases hacc
  obtain ⟨v, hv, hp⟩ := memStep_load hm hl (cycle_memStep hr h)
  obtain ⟨k, hk, rfl⟩ := memRead_aligned ha hv
  obtain ⟨hkn, hka⟩ := locate_eq_word.mp hk
  exact ⟨m, k, hm, rfl, hka, hkn, by simp [dataAnswer, hd, hk], (Prod.mk.inj hp).2⟩

/-- A shown write is to a word of the array, and to no other word (R46). -/
theorem cycle_write {s t : State} {a v : Word} (hwf : s.mem.wf = true) (h : step s = .next t)
    (hd : dataPort s = some (.write a v)) :
    ∃ k : Nat, a.toInt = 4 * (k : Int) ∧ k < s.cfg.memWords ∧ ∀ j, t.mem.read j = if j = k then v else s.mem.read j := by
  obtain ⟨hr, m, hm, ha, ⟨-, hacc⟩ | ⟨hs, hacc⟩⟩ := dataPort_eq_some hd <;> cases hacc
  obtain ⟨k, hk, hmem⟩ := memWrite_aligned ha (memStep_store hm hs (cycle_memStep hr h))
  obtain ⟨hkn, hka⟩ := locate_eq_word.mp hk
  exact ⟨k, hka, hkn, fun j => by rw [show t.mem = s.mem.write k m.sv from hmem, memory_read_write hwf]⟩

/-! ### The invariant over one cycle, clause by clause -/

section Keeps

variable {s t : State}

theorem cycle_keeps_portCount (hi : Inv s) (hr : s.running = true) (h : step s = .next t) :
    t.ports.length = t.cfg.nPorts := by
  rw [cycle_cfg hr h, ← hi.portCount]
  obtain ⟨-, hports, -⟩ | ⟨k, v, -, -, hports, -⟩ := cycle_outputs hr h <;> simp [hports]

theorem cycle_keeps_portsHoldLast (hi : Inv s) (hr : s.running = true) (h : step s = .next t) :
    ∀ k, k < t.cfg.nPorts → t.port k = lastOutput t.outLog k := by
  rw [cycle_cfg hr h]
  intro j hj
  have hlast := hi.portsHoldLast j hj
  unfold State.port at hlast ⊢
  obtain ⟨-, hports, hlog⟩ | ⟨k, v, -, hk, hports, hlog⟩ := cycle_outputs hr h
  · rw [hports, hlog, hlast]
  · rw [hports, hlog, lastOutput_append, getD_set (hi.portCount ▸ hk), hlast]

theorem cycle_keeps_historyInside (hi : Inv s) (hr : s.running = true) (h : step s = .next t) :
    ∀ c ∈ t.outLog, c.port < t.cfg.nPorts ∧ c.cycle ≤ t.cycles := by
  rw [cycle_cfg hr h, cycle_cycles hr h]
  have hold : ∀ c ∈ s.outLog, c.port < s.cfg.nPorts ∧ c.cycle ≤ s.cycles + 1 := fun c hc =>
    (hi.historyInside c hc).imp_right Nat.le_succ_of_le
  obtain ⟨-, -, hlog⟩ | ⟨k, v, -, hk, -, hlog⟩ := cycle_outputs hr h
  · rwa [hlog]
  · rw [hlog, List.forall_mem_append, List.forall_mem_singleton]
    exact ⟨hold, hk, Nat.le_refl _⟩

/-- The new commit carries the number of a cycle later than all that have been. -/
theorem cycle_keeps_historyOrdered (hi : Inv s) (hr : s.running = true) (h : step s = .next t) :
    t.outLog.Pairwise (fun a b => a.cycle < b.cycle) := by
  obtain ⟨-, -, hlog⟩ | ⟨k, v, -, -, -, hlog⟩ := cycle_outputs hr h
  · exact hlog ▸ hi.historyOrdered
  · rw [hlog, List.pairwise_append]
    refine ⟨hi.historyOrdered, List.pairwise_singleton _ _, fun a ha b hb => ?_⟩
    rw [List.mem_singleton.mp hb]
    exact Nat.lt_succ_of_le (hi.historyInside a ha).2

theorem cycle_keeps_memInside (hi : Inv s) (hr : s.running = true) (h : step s = .next t) :
    ∀ k, t.cfg.memWords ≤ k → t.mem.read k = 0 := by
  rw [cycle_cfg hr h]
  exact memStep_inside (cycle_memStep hr h) hi.memCanonical hi.memInside

/-- The fetch takes the instruction from the program (R31). -/
theorem cycle_keeps_ifid (hi : Inv s) (hr : s.running = true) (h : step s = .next t) :
    ∀ d, t.ifid = some d → progInstr t.cfg d.pc = some d.instr := by
  rw [cycle_cfg hr h]
  intro d hd
  have hif := cycle_ifStep hr h
  rw [hd] at hif
  exact (ifStep_occupant hif).elim (hi.ifidFromProgram d) id

theorem cycle_keeps_idex (hi : Inv s) (hr : s.running = true) (h : step s = .next t) :
    ∀ e, t.idex = some e → progInstr t.cfg e.pc = some e.instr := by
  rw [cycle_cfg hr h, cycle_idex hr h]
  intro e he
  obtain ⟨d, hd, -, -, rfl⟩ := idStep_eq_some he
  exact hi.ifidFromProgram d hd

theorem cycle_keeps_exmem (hi : Inv s) (hr : s.running = true) (h : step s = .next t) :
    ∀ m, t.exmem = some m → progInstr t.cfg m.pc = some m.instr := by
  rw [cycle_cfg hr h, cycle_exmem hr h]
  intro m hm
  obtain ⟨e, he, hpc, hinstr⟩ := nextExMem_eq_some hm
  rw [hpc, hinstr]
  exact hi.idexFromProgram e he

theorem cycle_keeps_memwb (hi : Inv s) (hr : s.running = true) (h : step s = .next t) :
    ∀ w, t.memwb = some w → progInstr t.cfg w.pc = some w.instr := by
  rw [cycle_cfg hr h]
  intro w hw
  have hmem := cycle_memStep hr h
  rw [hw] at hmem
  obtain ⟨m, hm, hpc, hinstr⟩ := memStep_occupant hmem
  rw [hpc, hinstr]
  exact hi.exmemFromProgram m hm

/-- The interlock needs no invariant: the hazard unit holds a LOAD's consumer back in the very cycle in which the two would
move on together (R136, R157). -/
theorem cycle_interlock (hr : s.running = true) (h : step s = .next t) :
    ∀ m e, t.exmem = some m → t.idex = some e → isLoad m.instr = true → m.instr.fields.rd ∉ srcs e.instr := by
  rw [cycle_exmem hr h, cycle_idex hr h]
  intro m e hm he hl
  obtain ⟨x, hx, -, hinstr⟩ := nextExMem_eq_some hm
  obtain ⟨d, hd, -, hh, rfl⟩ := idStep_eq_some he
  rw [hinstr] at hl ⊢
  exact not_mem_srcs_of_no_hazard hx hd hh hl

theorem cycle_keeps_retiredLeCycles (hi : Inv s) (hr : s.running = true) (h : step s = .next t) :
    t.retired ≤ t.cycles := by
  have hle := hi.retiredLeCycles
  rw [cycle_retired hr h, cycle_cycles hr h]
  split <;> omega

/-- A performed cycle keeps the invariant. -/
theorem cycle_keeps_inv (hi : Inv s) (hr : s.running = true) (h : step s = .next t) : Inv t where
  zeroRegister := cycle_reg_zero hr h
  memCanonical := memStep_wf (cycle_memStep hr h) hi.memCanonical
  memInside := cycle_keeps_memInside hi hr h
  portCount := cycle_keeps_portCount hi hr h
  portsHoldLast := cycle_keeps_portsHoldLast hi hr h
  historyInside := cycle_keeps_historyInside hi hr h
  historyOrdered := cycle_keeps_historyOrdered hi hr h
  ifidFromProgram := cycle_keeps_ifid hi hr h
  idexFromProgram := cycle_keeps_idex hi hr h
  exmemFromProgram := cycle_keeps_exmem hi hr h
  memwbFromProgram := cycle_keeps_memwb hi hr h
  interlock := cycle_interlock hr h
  retiredLeCycles := cycle_keeps_retiredLeCycles hi hr h

end Keeps

/-! ### Reset -/

/-- Every port of the reset state holds 0, and an index outside the array reads as 0 (R50). -/
@[simp] theorem resetWith_port (c : Config) (k : Nat) : (State.resetWith c).port k = 0#32 := by
  rw [State.port, resetWith_ports, List.getD_eq_getElem?_getD]
  exact List.getElem?_getD_replicate_default_eq _ _ _

/-- The invariant holds at reset: nothing is written, committed, fetched or counted yet. -/
theorem resetWith_inv (c : Config) : Inv (State.resetWith c) where
  zeroRegister := resetWith_reg c 0
  memCanonical := empty_wf
  memInside _ _ := rfl
  portCount := List.length_replicate
  portsHoldLast k _ := resetWith_port c k
  historyInside := List.forall_mem_nil _
  historyOrdered := List.Pairwise.nil
  ifidFromProgram _ h := nomatch h
  idexFromProgram _ h := nomatch h
  exmemFromProgram _ h := nomatch h
  memwbFromProgram _ h := nomatch h
  interlock _ _ h := nomatch h
  retiredLeCycles := Nat.le_refl 0

/-! ### The statements -/

/-- Settles O45: a state that holds keeps what it has, and a cycle keeps each clause. -/
theorem everyStepKeepsTheInvariant : Obligations.EveryStepKeepsTheInvariant := by
  intro s t hi h
  obtain ⟨-, rfl⟩ | hr := step_holds_or_runs h
  · exact hi
  · exact cycle_keeps_inv hi hr h

/-- Settles O8: of the stages only WB hands on a whole state, and it leaves the parameters alone. -/
theorem parametersNeverChange : Obligations.ParametersNeverChange := by
  intro s t h
  obtain ⟨-, rfl⟩ | hr := step_holds_or_runs h
  · rfl
  · exact cycle_cfg hr h

/-- Settles O9: a cycle is performed only below the cap. -/
theorem countersAdvance : Obligations.CountersAdvance := by
  intro s t hr h
  have hcap : s.cycles < s.cfg.maxCycles := (running_iff.mp hr).2.2
  have hcycles := cycle_cycles hr h
  exact ⟨hcycles, by omega, cycle_retired hr h⟩

/-- Settles O41, from what a cycle does to the outputs; a state that holds signals no event. -/
theorem commitEventsMakeTheHistory : Obligations.CommitEventsMakeTheHistory := by
  intro s t h
  obtain ⟨hr, rfl⟩ | hr := step_holds_or_runs h
  · simp [commitEvent_of_holding hr]
  · obtain ⟨hevent, -, hlog⟩ | ⟨k, v, hevent, -, -, hlog⟩ := cycle_outputs hr h <;> simp [hevent, hlog]

/-- Settles O42: a shown access passed the alignment test, and a cycle that answers next passed the range test. -/
theorem dataPortShowsTheAccess : Obligations.DataPortShowsTheAccess := by
  intro s t hwf h
  refine ⟨fun a => cycle_read h, fun a v => cycle_write hwf h, fun hn => ?_⟩
  obtain ⟨-, rfl⟩ | hr := step_holds_or_runs h
  · rfl
  · exact memStep_mem_eq_of_no_write hr (cycle_memStep hr h) hn

/-- Settles O43: the edge answers the reset state of the same parameters. -/
theorem resetPutsEveryPiece : Obligations.ResetPutsEveryPiece := fun s =>
  ⟨s.restart, rfl, rfl, resetWith_reg s.cfg, fun _ => rfl, List.length_replicate, resetWith_port s.cfg,
    rfl, rfl, rfl, rfl, rfl, rfl, rfl, rfl⟩

/-- Settles O44: the default parameters are one choice among all. -/
theorem resetSatisfiesInvariant : Obligations.ResetSatisfiesInvariant :=
  ⟨resetWith_inv {}, resetWith_inv⟩

end Sys2Proof.Machine

/-! PROOF. The statements about data memory (20_memory.md): what an access does by its address, the LOAD directly behind a
STORE, and where a cycle ends in the range fault. -/

namespace Sys2Proof.Machine

/-! ### The access primitives, by what the address means -/

section Access

variable {n k : Nat} {m : Memory} {a v : Word} {r : Fault}

theorem memRead_of_misaligned (h : locate n a = .misaligned) : memRead n m a = .next 0 := by simp [memRead, h]

theorem memRead_of_word (h : locate n a = .word k) : memRead n m a = .next (m.read k) := by simp [memRead, h]

theorem memWrite_of_misaligned (h : locate n a = .misaligned) : memWrite n m a v = .next m := by simp [memWrite, h]

theorem memWrite_of_word (h : locate n a = .word k) : memWrite n m a v = .next (m.write k v) := by simp [memWrite, h]

/-- A read faults exactly where no word is meant, and the fault names the address (R65). -/
theorem memRead_eq_fault : memRead n m a = .fault r ↔ locate n a = .outside ∧ r = .memRange a := by
  cases h : locate n a <;> simp [memRead, h, eq_comm]

/-- A write faults exactly where no word is meant, and the fault names the address (R65). -/
theorem memWrite_eq_fault : memWrite n m a v = .fault r ↔ locate n a = .outside ∧ r = .memRange a := by
  cases h : locate n a <;> simp [memWrite, h, eq_comm]

end Access

/-! ### Which stage of a cycle can fault -/

section Fault

variable {s : State} {r : Fault}

theorem isLoad_iff {i : Instr} : isLoad i = true ↔ ∃ f, i = .load f := by cases i <;> simp [isLoad]

theorem isStore_iff {i : Instr} : isStore i = true ↔ ∃ f, i = .store f := by cases i <;> simp [isStore]

/-- A commit is refused at worst (R310). -/
theorem commit_ne_fault (w : MemWb) : commit s w ≠ .fault r := by
  unfold commit writePort
  split
  · nofun
  · split
    · split <;> nofun
    · nofun

theorem wbStep_ne_fault : wbStep s ≠ .fault r := by
  unfold wbStep
  split
  · nofun
  · simp [andThen_eq_fault, commit_ne_fault]

theorem ifStep_ne_fault {redirect : Option InstrIndex} : ifStep s redirect ≠ .fault r := by
  unfold ifStep fetch
  split
  · nofun
  · split
    · nofun
    · split
      · nofun
      · split <;> nofun

/-- The MEM step faults exactly for a LOAD or STORE whose address means no word (R65, R198). -/
theorem memStep_eq_fault : memStep s = .fault r ↔
    ∃ m, s.exmem = some m ∧ (isLoad m.instr = true ∨ isStore m.instr = true) ∧
      locate s.cfg.memWords m.alu = .outside ∧ r = .memRange m.alu := by
  cases hm : s.exmem with
  | none => simp [memStep, hm]
  | some m =>
    by_cases hl : isLoad m.instr = true
    · simp [memStep, hm, hl, andThen_eq_fault, memRead_eq_fault]
    · by_cases hs : isStore m.instr = true
      · simp [memStep, hm, hl, hs, andThen_eq_fault, memWrite_eq_fault]
      · simp [memStep, hm, hl, hs]

/-- The MEM step is the only one that faults, and it has its turn once the WB step has answered (R65, R190). -/
theorem finishCycle_eq_fault {ex : Option ExMem} {redirect : Option InstrIndex} :
    finishCycle s ex redirect = .fault r ↔ (∃ u, wbStep s = .next u) ∧ memStep s = .fault r := by
  simp [finishCycle, andThen_eq_fault, wbStep_ne_fault, ifStep_ne_fault]

/-! ### Under the invariant the WB step always answers -/

/-- Where the OUT in MEM/WB, if one is there, names a port, the WB step answers (R109, R195). -/
theorem wbStep_completes (h : s.commitOk = true) : ∃ u, wbStep s = .next u := by
  unfold wbStep
  cases hw : s.memwb with
  | none => exact ⟨_, rfl⟩
  | some w =>
    by_cases ho : isOut w.instr = true
    · obtain ⟨k, hk⟩ : ∃ k, portIndex s.cfg.nPorts w.instr.fields.imm = some k := by
        simpa [State.commitOk, hw, ho, Option.isSome_iff_exists] using h
      simp [commit, isOut_not_writesBack ho, ho, writePort, hk]
    · cases hb : writesBack w.instr <;> simp [commit, hb, ho]

/-- The immediate of a well-formed OUT names a port (R109). -/
theorem portIndex_of_wellFormed {i : Instr} {n : Nat} (ho : isOut i = true) (hi : i.wellFormed n = true) :
    (portIndex n i.fields.imm).isSome = true := by
  cases i <;> cases ho
  next f =>
    have hport : 0 ≤ f.imm.toInt ∧ f.imm.toInt < n := of_decide_eq_true hi
    simp [portIndex, Instr.fields, hport]

/-- MEM/WB holds an instruction of the accepted program, so that an OUT there names a port. -/
theorem commitOk_of_inv (hi : Inv s) (hl : loadProblem s.cfg = none) : s.commitOk = true := by
  unfold State.commitOk
  split
  · rfl
  · rename_i w hw
    by_cases ho : isOut w.instr = true
    · have hwf := progInstr_wellFormed hl (hi.memwbFromProgram w hw)
      simp [portIndex_of_wellFormed ho hwf]
    · simp [ho]

/-- Under the invariant a cycle faults exactly where its MEM step does. -/
theorem cycle_eq_fault (hi : Inv s) (hr : s.running = true) : step s = .fault r ↔ memStep s = .fault r := by
  have hwb : ∃ u, wbStep s = .next u := wbStep_completes (commitOk_of_inv hi (running_iff.mp hr).1)
  rw [step_of_running hr, finishCycle_eq_fault, and_iff_right hwb]

end Fault

/-! ### A STORE and a LOAD in the MEM step -/

section StoreLoad

variable {s t : State} {m : ExMem} {k : Nat}

/-- The cycle with a STORE to a word in the MEM step leaves the store value there (R71). -/
theorem cycle_store_word (hwf : s.mem.wf = true) (hr : s.running = true) (h : step s = .next t)
    (hm : s.exmem = some m) (hs : isStore m.instr = true) (hk : locate s.cfg.memWords m.alu = .word k) :
    t.mem.read k = m.sv := by
  have hmem : memWrite s.cfg.memWords s.mem m.alu m.sv = .next t.mem := memStep_store hm hs (cycle_memStep hr h)
  rw [memWrite_of_word hk] at hmem
  rw [← Host.Outcome.next.inj hmem, memory_read_write hwf, if_pos rfl]

/-- The cycle with a LOAD from a word in the MEM step hands that word on (R71, R198). -/
theorem cycle_load_word (hr : s.running = true) (h : step s = .next t) (hm : s.exmem = some m)
    (hl : isLoad m.instr = true) (hk : locate s.cfg.memWords m.alu = .word k) :
    t.memwb = some ⟨m.pc, m.instr, s.mem.read k⟩ := by
  obtain ⟨v, hv, hp⟩ := memStep_load hm hl (cycle_memStep hr h)
  rw [memRead_of_word hk] at hv
  cases hv
  exact (Prod.mk.inj hp).2

/-- A LOAD in the EX step moves on to EX/MEM with its address (R201, R251). -/
theorem cycle_exmem_of_load {e : IdEx} {f : Fields} (hr : s.running = true) (h : step s = .next t)
    (he : s.idex = some e) (hl : e.instr = .load f) :
    t.exmem = some ⟨e.pc, .load f, (forward s e).fa + f.imm, 0⟩ := by
  simp [cycle_exmem hr h, nextExMem, he, hl, exResult, exLoad]

end StoreLoad

/-! ### The statements -/

/-- Settles O12: each class of address is what `locate` says of it, and the two primitives follow `locate`. -/
theorem dataAccessMeaning : Obligations.DataAccessMeaning := by
  intro n m a v hwf
  refine ⟨fun hmis => ?_, fun k hkn hka => ?_, fun h4 hout => ?_⟩
  · have hloc : locate n a = .misaligned := locate_eq_misaligned.mpr hmis
    exact ⟨memRead_of_misaligned hloc, memWrite_of_misaligned hloc⟩
  · have hloc : locate n a = .word k := locate_eq_word.mpr ⟨hkn, hka⟩
    exact ⟨memRead_of_word hloc, m.write k v, memWrite_of_word hloc, write_wf k v hwf,
      fun j => memory_read_write hwf k j v⟩
  · have hloc : locate n a = .outside := locate_eq_outside.mpr ⟨h4, hout⟩
    exact ⟨memRead_eq_fault.mpr ⟨hloc, rfl⟩, memWrite_eq_fault.mpr ⟨hloc, rfl⟩⟩

/-- Settles O39: the STORE's write of the first cycle stands before the LOAD's read of the second. -/
theorem loadBehindStoreReadsTheStoredWord : Obligations.LoadBehindStoreReadsTheStoredWord := by
  intro s t u m e f g k hwf hm hstore he hload haddr hk hr h hr' h'
  have hstored : t.mem.read k = m.sv := cycle_store_word hwf hr h hm (isStore_iff.mpr ⟨g, hstore⟩) hk
  have hnext : t.exmem = some ⟨e.pc, .load f, m.alu, 0⟩ := haddr ▸ cycle_exmem_of_load hr h he hload
  have hk' : locate t.cfg.memWords m.alu = .word k := by rwa [cycle_cfg hr h]
  exact ⟨hstored, hstored ▸ cycle_load_word hr' h' hnext rfl hk'⟩

/-- Settles O40: a cycle faults where its MEM step does, which is where a LOAD's or STORE's address means no word. -/
theorem rangeFaultExactly : Obligations.RangeFaultExactly := by
  intro s a hi hr
  rw [cycle_eq_fault hi hr, memStep_eq_fault]
  simp only [isLoad_iff, isStore_iff, ← exists_or, locate_eq_outside, Fault.memRange.injEq]
  constructor
  · rintro ⟨m, hm, ⟨f, hf⟩, hout, rfl⟩
    exact ⟨m, f, hm, hf, rfl, hout⟩
  · rintro ⟨m, f, hm, hf, rfl, hout⟩
    exact ⟨m, hm, ⟨f, hf⟩, hout, rfl⟩

end Sys2Proof.Machine

/-! PROOF. The statements about the encoding (30_encoding.md): `encode` and `decode` undo each other, and the reserved opcodes. -/

namespace Sys2Proof

/-! ### The six fields of a word -/

/-- The field reader takes the fields out of the concatenation of R93. -/
theorem decodeFields_word (op rd ra rb : BitVec 4) (lab : Label) (imm : Word) :
    decodeFields (op ++ rd ++ ra ++ rb ++ lab ++ imm) = ⟨rd, ra, rb, lab, imm⟩ := by
  have := op.isLt
  have := rd.isLt
  have := ra.isLt
  have := rb.isLt
  have := lab.isLt
  have := imm.isLt
  rw [decodeFields, Fields.mk.injEq]
  refine ⟨?_, ?_, ?_, ?_, ?_⟩ <;> apply BitVec.eq_of_toNat_eq <;>
    rw [BitVec.extractLsb'_toNat, word_toNat, Nat.shiftRight_eq_div_pow] <;> omega

/-- The six fields cover the word: nothing of it is lost between them (R93). -/
theorem word_of_fields (w : InstrWord) :
    w.extractLsb' 60 4 ++ w.extractLsb' 56 4 ++ w.extractLsb' 52 4 ++ w.extractLsb' 48 4 ++ w.extractLsb' 32 16 ++
      w.extractLsb' 0 32 = w := by
  apply BitVec.eq_of_toNat_eq
  rw [word_toNat]
  simp only [BitVec.extractLsb'_toNat, Nat.shiftRight_eq_div_pow]
  have := w.isLt
  omega

theorem decodeFields_encode (i : Instr) : decodeFields (encode i) = i.fields :=
  decodeFields_word _ _ _ _ _ _

/-! ### Decoding an encoded instruction, and back -/

/-- The opcode number selects the arm of `i`, and the fields are read back. -/
theorem decode_encode (i : Instr) : decode (encode i) = .ok i := by
  unfold decode
  rw [encode_opcode, decodeFields_encode]
  cases i <;> rfl

/-- The opcode number and the fields of `i` are those of the word, and these cover it. -/
theorem encode_of_decode {w : InstrWord} {i : Instr} (h : decode w = .ok i) : encode i = w := by
  obtain ⟨hop, hfields⟩ := decode_eq_ok h
  rw [encode, ← hop, hfields]
  exact word_of_fields w

/-- Settles O1. -/
theorem decodeOfEncodeIsTheInstruction : Obligations.DecodeOfEncodeIsTheInstruction := decode_encode

/-- Settles O2. -/
theorem encodeOfDecodeIsTheWord : Obligations.EncodeOfDecodeIsTheWord := fun _ _ => encode_of_decode

/-! ### Reserved opcodes -/

/-- The decoder refuses a word exactly for a number past the nine opcodes (R94, R100). -/
theorem decode_eq_error_iff {w : InstrWord} {d : DecodeError} :
    decode w = .error d ↔ 9 ≤ (w.extractLsb' 60 4).toNat ∧ d = .reservedOpcode (w.extractLsb' 60 4) := by
  unfold decode
  split
  case h_10 =>
    have hop : 9 ≤ (w.extractLsb' 60 4).toNat := by simp only [imp_false] at *; omega
    simp [hop, eq_comm, -BitVec.extractLsb'_toNat]
  all_goals simp [*]

end Sys2Proof

namespace Sys2Proof.Machine

/-- A run with a load problem has no step: every state is refused, a done or capped one as well (log 9). -/
theorem step_of_loadProblem {s : State} {r : Refusal} (h : loadProblem s.cfg = some r) : step s = .refused r := by
  simp [step, h]

/-- An image with a word that does not decode is not accepted (R319). -/
theorem loadProblem_of_undecodable {c : Config} {w : InstrWord} {d : DecodeError} (hw : w ∈ c.prog)
    (hd : decode w = .error d) : ∃ r, loadProblem c = some r := by
  rw [← Option.ne_none_iff_exists']
  intro hl
  obtain ⟨-, -, -, -, himage⟩ := loadProblem_none hl
  obtain ⟨i, hi, -⟩ := imageProblem_none himage w hw
  cases hd.symm.trans hi

/-- Settles O3: the decoder by its opcode number, and the step by the check of the image that precedes it. -/
theorem reservedOpcodesAreRefused : Obligations.ReservedOpcodesAreRefused := by
  refine ⟨fun w => ?_, fun s k w hw hop => ?_⟩
  · simp [decode_eq_error_iff]
  · obtain ⟨r, hr⟩ := loadProblem_of_undecodable (List.mem_of_getElem? hw) (decode_eq_error_iff.mpr ⟨hop, rfl⟩)
    exact ⟨r, step_of_loadProblem hr⟩

end Sys2Proof.Machine

/-! PROOF. The fields that an opcode does not use (30_encoding.md R99): two states related by `SameButUnused` step alike. Each
stage of the cycle gets one lemma, and `OutcomesAgree` puts them together, stops included. -/

namespace Sys2Proof.Machine

/-! ### Outcomes that agree -/

/-- Both outcomes answer next, with results in the relation `R`, or both stop for the same reason. -/
inductive OutcomesAgree {α β : Type} (R : α → β → Prop) :
    Host.Outcome α Fault Refusal → Host.Outcome β Fault Refusal → Prop
  | next {a : α} {b : β} (h : R a b) : OutcomesAgree R (.next a) (.next b)
  | fault (r : Fault) : OutcomesAgree R (.fault r) (.fault r)
  | refused (r : Refusal) : OutcomesAgree R (.refused r) (.refused r)

/-- Agreement, read from the first outcome to the second. -/
theorem OutcomesAgree.forwards {α β : Type} {R : α → β → Prop} {o : Host.Outcome α Fault Refusal}
    {o' : Host.Outcome β Fault Refusal} (h : OutcomesAgree R o o') :
    (∀ a, o = .next a → ∃ b, o' = .next b ∧ R a b) ∧ (∀ r, o = .fault r → o' = .fault r) ∧
      (∀ r, o = .refused r → o' = .refused r) := by
  cases h <;> simp [*]

/-- An outcome agrees with itself under equality. -/
theorem OutcomesAgree.refl {α : Type} (o : Host.Outcome α Fault Refusal) : OutcomesAgree (· = ·) o o := by
  cases o
  · exact .next rfl
  · exact .fault _
  · exact .refused _

/-- Sequences agree where their first parts agree and related results are taken on alike. -/
theorem OutcomesAgree.andThen {α α' β β' : Type} {R : α → α' → Prop} {S : β → β' → Prop}
    {o : Host.Outcome α Fault Refusal} {o' : Host.Outcome α' Fault Refusal}
    {k : α → Host.Outcome β Fault Refusal} {k' : α' → Host.Outcome β' Fault Refusal}
    (h : OutcomesAgree R o o') (hk : ∀ a a', R a a' → OutcomesAgree S (k a) (k' a')) :
    OutcomesAgree S (Machine.andThen o k) (Machine.andThen o' k') := by
  cases h with
  | next hR => exact hk _ _ hR
  | fault r => exact .fault r
  | refused r => exact .refused r

/-! ### The program with 0 in its unused fields -/

/-- What a word with 0 in its unused fields decodes to; a reserved word stays reserved. -/
theorem decode_zeroUnusedWord (w : InstrWord) : decode (zeroUnusedWord w) = (decode w).map zeroUnused := by
  unfold zeroUnusedWord
  cases h : decode w with
  | ok i => exact decode_encode (zeroUnused i)
  | error d => exact h

/-- The check of the image finds the same, at the same index. -/
theorem imageProblem_zeroUnusedWord (n k : Nat) (l : List InstrWord) :
    imageProblem n k (l.map zeroUnusedWord) = imageProblem n k l := by
  induction l generalizing k with
  | nil => rfl
  | cons w l ih =>
    simp only [List.map_cons, imageProblem, decode_zeroUnusedWord]
    cases decode w with
    | ok i => simp [Except.map, ih]
    | error d => rfl

section Related

variable {s s' : State}

theorem SameButUnused.loadProblem_eq (h : SameButUnused s s') : loadProblem s'.cfg = loadProblem s.cfg := by
  simp [loadProblem, h.cfg, Config.sizesOk, Config.capOk, Config.lengthOk, imageProblem_zeroUnusedWord]

theorem SameButUnused.memWords_eq (h : SameButUnused s s') : s'.cfg.memWords = s.cfg.memWords := by rw [h.cfg]

theorem SameButUnused.nPorts_eq (h : SameButUnused s s') : s'.cfg.nPorts = s.cfg.nPorts := by rw [h.cfg]

/-- ID/EX is empty in both states, or holds occupants that agree. -/
theorem SameButUnused.idex_cases (h : SameButUnused s s') :
    (s.idex = none ∧ s'.idex = none) ∨ ∃ e e', s.idex = some e ∧ s'.idex = some e' ∧ slotsAgree e e' := by
  have hrel := h.idex
  generalize s.idex = x, s'.idex = x' at hrel
  cases hrel with
  | none => exact .inl ⟨rfl, rfl⟩
  | some he => exact .inr ⟨_, _, rfl, rfl, he⟩

theorem SameButUnused.idex_isNone (h : SameButUnused s s') : s'.idex.isNone = s.idex.isNone := by
  obtain ⟨hx, hx'⟩ | ⟨e, e', hx, hx', -⟩ := h.idex_cases <;> simp [hx, hx']

theorem SameButUnused.done_eq (h : SameButUnused s s') : s'.done = s.done := by
  simp [State.done, inBounds, h.cfg, h.pc, h.ifid, h.idex_isNone, h.exmem, h.memwb]

theorem SameButUnused.capped_eq (h : SameButUnused s s') : s'.capped = s.capped := by
  simp [State.capped, h.cfg, h.cycles]

/-! ### WB and MEM -/

/-- The immediate of an OUT is a used field: it names the port (R290). -/
theorem zeroUnused_imm_of_isOut {i : Instr} (h : isOut i = true) : (zeroUnused i).fields.imm = i.fields.imm := by
  cases i <;> cases h
  rfl

theorem SameButUnused.commit_agrees (h : SameButUnused s s') (w : MemWb) :
    OutcomesAgree SameButUnused (commit s w) (commit s' { w with instr := zeroUnused w.instr }) := by
  unfold commit writePort
  by_cases hb : writesBack w.instr = true
  · simp only [zeroUnused_writesBack, hb, if_true, zeroUnused_rd hb]
    exact .next { h with regs := by rw [h.regs] }
  · by_cases ho : isOut w.instr = true
    · simp only [zeroUnused_writesBack, hb, zeroUnused_isOut, ho, if_true, zeroUnused_imm_of_isOut ho, h.nPorts_eq]
      cases portIndex s.cfg.nPorts w.instr.fields.imm with
      | none => exact .refused _
      | some k => exact .next { h with ports := by rw [h.ports], outLog := by rw [h.outLog, h.cycles] }
    · simp only [zeroUnused_writesBack, hb, zeroUnused_isOut, ho]
      exact .next h

theorem SameButUnused.wbStep_agrees (h : SameButUnused s s') :
    OutcomesAgree SameButUnused (wbStep s) (wbStep s') := by
  unfold wbStep
  rw [h.memwb]
  cases s.memwb with
  | none => exact .next { h with regs := by rw [h.regs], memwb := rfl }
  | some w =>
    refine (h.commit_agrees w).andThen fun t t' ht => .next ?_
    exact { ht with regs := by rw [ht.regs], retired := by rw [ht.retired] }

/-- Two results of the MEM step: the same memory, and occupants of MEM/WB that agree but for unused fields. -/
def memResultsAgree (p p' : Memory × Option MemWb) : Prop :=
  p'.1 = p.1 ∧ p'.2 = p.2.map fun w => { w with instr := zeroUnused w.instr }

theorem SameButUnused.memStep_agrees (h : SameButUnused s s') :
    OutcomesAgree memResultsAgree (memStep s) (memStep s') := by
  unfold memStep
  rw [h.exmem, h.mem, h.memWords_eq]
  cases s.exmem with
  | none => exact .next ⟨rfl, rfl⟩
  | some m =>
    simp only [Option.map_some, zeroUnused_isLoad, zeroUnused_isStore]
    split
    · refine (OutcomesAgree.refl _).andThen ?_
      rintro v _ rfl
      exact .next ⟨rfl, rfl⟩
    · split
      · refine (OutcomesAgree.refl _).andThen ?_
        rintro m' _ rfl
        exact .next ⟨rfl, rfl⟩
      · exact .next ⟨rfl, rfl⟩

/-! ### EX -/

/-- Two operand triples agree in the values that the opcode uses (R99). -/
def operandsAgree (i : Instr) (o o' : Operands) : Prop :=
  match i with
  | .add _ | .sub _ | .beq _ => o'.fa = o.fa ∧ o'.fb = o.fb
  | .load _ | .out _ => o'.fa = o.fa
  | .store _ => o'.fd = o.fd ∧ o'.fa = o.fa
  | .jump _ | .set _ | .nop _ => True

/-- Two occupants of ID/EX agree where their captured operands do. -/
theorem slotsAgree_iff {e e' : IdEx} : slotsAgree e e' ↔
    e'.pc = e.pc ∧ e'.instr = zeroUnused e.instr ∧ operandsAgree e.instr (captured e) (captured e') := by
  unfold slotsAgree operandsAgree
  cases e.instr <;> rfl

/-- A register field that names a used operand is a used field, so that a producer replaces the same used operands (R152). -/
theorem operandsAgree_replaceMatching {i : Instr} {o o' : Operands} (h : operandsAgree i o o') (rd : RegIndex) (v : Word) :
    operandsAgree i (replaceMatching i.fields rd v o) (replaceMatching (zeroUnused i).fields rd v o') := by
  cases i with
  | add f | sub f | beq f =>
    exact ⟨congrArg (if f.ra = rd then v else ·) h.1, congrArg (if f.rb = rd then v else ·) h.2⟩
  | load f | out f => exact congrArg (if f.ra = rd then v else ·) h
  | store f => exact ⟨congrArg (if f.rd = rd then v else ·) h.1, congrArg (if f.ra = rd then v else ·) h.2⟩
  | jump f | set f | nop f => trivial

/-- A producer that writes back forwards from its used fields: the test `ok` of its destination and the replacement see the
same register with and without the unused fields. -/
theorem operandsAgree_forwardFrom {i : Instr} {o o' : Operands} (h : operandsAgree i o o') (p : Instr)
    (ok : RegIndex → Bool) (v : Word) :
    operandsAgree i (if writesBack p && ok p.fields.rd then replaceMatching i.fields p.fields.rd v o else o)
      (if writesBack p && ok (zeroUnused p).fields.rd then
        replaceMatching (zeroUnused i).fields (zeroUnused p).fields.rd v o' else o') := by
  cases hb : writesBack p with
  | false => exact h
  | true =>
    rw [zeroUnused_rd hb]
    split
    · exact operandsAgree_replaceMatching h _ _
    · exact h

theorem SameButUnused.mayForward_eq (h : SameButUnused s s') : mayForward s'.cfg = mayForward s.cfg := by
  rw [h.cfg]
  rfl

/-- Step (a) of forwarding: whether and what a producer forwards is in its used fields (R153). -/
theorem SameButUnused.forwardExMem_agrees (h : SameButUnused s s') {i : Instr} {o o' : Operands}
    (ho : operandsAgree i o o') : operandsAgree i (forwardExMem s.cfg s.exmem i.fields o)
      (forwardExMem s'.cfg s'.exmem (zeroUnused i).fields o') := by
  unfold forwardExMem
  rw [h.exmem, h.mayForward_eq]
  cases s.exmem with
  | none => exact ho
  | some p =>
    simp only [Option.map_some, zeroUnused_writesBack, zeroUnused_isLoad, Bool.and_assoc]
    exact operandsAgree_forwardFrom ho p.instr (fun rd => !isLoad p.instr && mayForward s.cfg rd) p.alu

/-- Step (b) of forwarding, likewise (R154). -/
theorem SameButUnused.forwardMemWb_agrees (h : SameButUnused s s') {i : Instr} {o o' : Operands}
    (ho : operandsAgree i o o') : operandsAgree i (forwardMemWb s.cfg s.memwb i.fields o)
      (forwardMemWb s'.cfg s'.memwb (zeroUnused i).fields o') := by
  unfold forwardMemWb
  rw [h.memwb, h.mayForward_eq]
  cases s.memwb with
  | none => exact ho
  | some p =>
    simp only [Option.map_some, zeroUnused_writesBack]
    exact operandsAgree_forwardFrom ho p.instr (mayForward s.cfg) p.res

theorem SameButUnused.forward_agrees (h : SameButUnused s s') {e e' : IdEx} (he : slotsAgree e e') :
    operandsAgree e.instr (forward s e) (forward s' e') := by
  obtain ⟨-, hinstr, ho⟩ := slotsAgree_iff.mp he
  unfold forward
  rw [hinstr]
  exact h.forwardMemWb_agrees (h.forwardExMem_agrees ho)

/-- The EX step computes from used operands alone. -/
theorem exResult_of_operandsAgree (c : Config) {i : Instr} {o o' : Operands} (h : operandsAgree i o o') :
    exResult c i o' = exResult c i o := by
  cases i with
  | add f | sub f | beq f =>
    obtain ⟨ha, hb⟩ := h
    simp only [exResult, exAdd, exSub, exBeq, ha, hb]
  | store f =>
    obtain ⟨hd, ha⟩ := h
    simp only [exResult, exStore, hd, ha]
  | load f | out f =>
    have ha : o'.fa = o.fa := h
    simp only [exResult, exLoad, exOutput, ha]
  | jump f | set f | nop f => rfl

/-- The EX step reads the Label Table and no program word. -/
theorem exResult_prog (c : Config) (l : List InstrWord) (i : Instr) (o : Operands) :
    exResult { c with prog := l } i o = exResult c i o := by
  cases i <;> rfl

theorem SameButUnused.exResult_eq (h : SameButUnused s s') {e e' : IdEx} (he : slotsAgree e e') :
    exResult s'.cfg e'.instr (forward s' e') = exResult s.cfg e.instr (forward s e) := by
  obtain ⟨-, hinstr, -⟩ := slotsAgree_iff.mp he
  rw [h.cfg, exResult_prog, hinstr, zeroUnused_exResult, exResult_of_operandsAgree _ (h.forward_agrees he)]

theorem SameButUnused.takenTarget_eq (h : SameButUnused s s') : takenTarget s' = takenTarget s := by
  unfold takenTarget
  obtain ⟨hx, hx'⟩ | ⟨e, e', hx, hx', he⟩ := h.idex_cases
  · rw [hx, hx']
  · simp only [hx, hx', h.exResult_eq he]

theorem SameButUnused.nextExMem_eq (h : SameButUnused s s') :
    nextExMem s' = (nextExMem s).map fun m => { m with instr := zeroUnused m.instr } := by
  unfold nextExMem
  obtain ⟨hx, hx'⟩ | ⟨e, e', hx, hx', he⟩ := h.idex_cases
  · rw [hx, hx']
    rfl
  · obtain ⟨hpc, hinstr, -⟩ := slotsAgree_iff.mp he
    simp only [hx, hx', h.exResult_eq he, Option.map_some]
    rw [hpc, hinstr]

/-! ### ID and IF -/

theorem SameButUnused.hazard_eq (h : SameButUnused s s') : hazard s' = hazard s := by
  unfold hazard
  rw [h.ifid]
  obtain ⟨hx, hx'⟩ | ⟨e, e', hx, hx', he⟩ := h.idex_cases
  · rw [hx, hx']
  · obtain ⟨-, hinstr, -⟩ := slotsAgree_iff.mp he
    cases s.ifid with
    | none => simp [hx, hx']
    | some d =>
      cases hl : isLoad e.instr with
      | false => simp [hx, hx', hinstr, hl]
      | true => simp [hx, hx', hinstr, zeroUnused_rd (isLoad_writesBack hl)]

/-- The registers that the opcode uses are read alike (R206). -/
theorem slotsAgree_capture (x : RegFile) (pc : InstrIndex) (i : Instr) :
    slotsAgree (capture x pc i) (capture x pc (zeroUnused i)) := by
  cases i <;> simp [slotsAgree, capture, zeroUnused, Instr.fields]

theorem SameButUnused.idStep_agrees (h : SameButUnused s s') (x : RegFile) (taken : Bool) :
    Option.Rel slotsAgree (idStep s x taken) (idStep s' x taken) := by
  unfold idStep
  rw [h.ifid, h.hazard_eq]
  cases s.ifid with
  | none => exact .none
  | some d =>
    simp only [Option.map_some]
    split
    · exact .none
    · exact .some (slotsAgree_capture x d.pc d.instr)

/-- Two results of the IF step: the same next index, and occupants of IF/ID that agree but for unused fields. -/
def fetchesAgree (f f' : Option IfId × InstrIndex) : Prop :=
  f'.1 = (f.1.map fun d => { d with instr := zeroUnused d.instr }) ∧ f'.2 = f.2

theorem fetch_agrees (c : Config) (pc : InstrIndex) :
    OutcomesAgree fetchesAgree (fetch c pc) (fetch { c with prog := c.prog.map zeroUnusedWord } pc) := by
  unfold fetch progWord
  simp only [List.getElem?_map]
  cases c.prog[pc.toNat]? with
  | none => exact .next ⟨rfl, rfl⟩
  | some w =>
    simp only [Option.map_some, decode_zeroUnusedWord]
    cases decode w with
    | ok i => exact .next ⟨rfl, rfl⟩
    | error d => exact .refused _

theorem SameButUnused.ifStep_agrees (h : SameButUnused s s') (redirect : Option InstrIndex) :
    OutcomesAgree fetchesAgree (ifStep s redirect) (ifStep s' redirect) := by
  unfold ifStep stall
  rw [h.hazard_eq, h.ifid, h.pc, h.cfg]
  cases redirect with
  | some target => exact .next ⟨rfl, rfl⟩
  | none =>
    simp only
    split
    · exact .next ⟨rfl, rfl⟩
    · exact fetch_agrees s.cfg s.pc

/-! ### The cycle, the step and the run -/

theorem SameButUnused.cycle_agrees (h : SameButUnused s s') :
    OutcomesAgree SameButUnused (finishCycle s (nextExMem s) (takenTarget s))
      (finishCycle s' (nextExMem s') (takenTarget s')) := by
  unfold finishCycle
  rw [h.takenTarget_eq]
  refine h.wbStep_agrees.andThen fun u u' hu => ?_
  refine h.memStep_agrees.andThen fun p p' ⟨hmem, hmemwb⟩ => ?_
  refine (h.ifStep_agrees _).andThen fun f f' ⟨hifid, hpc⟩ => ?_
  exact .next { hu with
    pc := hpc
    mem := hmem
    ifid := hifid
    idex := by rw [hu.regs]; exact h.idStep_agrees _ _
    exmem := h.nextExMem_eq
    memwb := hmemwb
    cycles := by rw [h.cycles] }

/-- A state with accepted parameters that is done or capped holds (R49, R218). -/
theorem step_of_ended (hl : loadProblem s.cfg = none) (hd : (s.done || s.capped) = true) : step s = .next s := by
  simp [step, hl, hd]

theorem running_of_not_ended (hl : loadProblem s.cfg = none) (hd : ¬ (s.done || s.capped) = true) :
    s.running = true := by
  rw [running_iff]
  simpa [hl, State.capped] using hd

theorem SameButUnused.step_agrees (h : SameButUnused s s') : OutcomesAgree SameButUnused (step s) (step s') := by
  have hload := h.loadProblem_eq
  have hended : (s'.done || s'.capped) = (s.done || s.capped) := by rw [h.done_eq, h.capped_eq]
  cases hl : loadProblem s.cfg with
  | some r =>
    rw [step_of_loadProblem hl, step_of_loadProblem (hload.trans hl)]
    exact .refused r
  | none =>
    by_cases hd : (s.done || s.capped) = true
    · rw [step_of_ended hl hd, step_of_ended (hload.trans hl) (hended.trans hd)]
      exact .next h
    · rw [step_of_running (running_of_not_ended hl hd),
        step_of_running (running_of_not_ended (hload.trans hl) (hended ▸ hd))]
      exact h.cycle_agrees

theorem run_succ (n : Nat) (s : State) :
    Host.Core.run core (n + 1) s = andThen (step s) (Host.Core.run core n) := by
  cases h : step s <;> simp [Host.Core.run, core, h]

/-- Any number of steps, by induction on it. -/
theorem SameButUnused.run_agrees (h : SameButUnused s s') (n : Nat) :
    OutcomesAgree SameButUnused (Host.Core.run core n s) (Host.Core.run core n s') := by
  induction n generalizing s s' with
  | zero => exact .next h
  | succ n ih =>
    rw [run_succ, run_succ]
    exact h.step_agrees.andThen fun t t' ht => ih ht

end Related

/-- At reset nothing but the program differs. -/
theorem resetWith_sameButUnused (c : Config) :
    SameButUnused (State.resetWith c) (State.resetWith { c with prog := c.prog.map zeroUnusedWord }) where
  cfg := rfl
  pc := rfl
  regs := rfl
  mem := rfl
  ports := rfl
  ifid := rfl
  idex := .none
  exmem := rfl
  memwb := rfl
  cycles := rfl
  retired := rfl
  outLog := rfl

/-! ### The statements -/

/-- Settles O56: the two steps agree stage by stage. -/
theorem stepIgnoresUnusedFields : Obligations.StepIgnoresUnusedFields :=
  fun _ _ h => h.step_agrees.forwards

/-- Settles O52: the relation holds at reset and the run keeps it; what is visible is equal in related states. -/
theorem unusedFieldsChangeNothing : Obligations.UnusedFieldsChangeNothing := by
  intro c n s hrun
  obtain ⟨hnext, -, -⟩ := ((resetWith_sameButUnused c).run_agrees n).forwards
  obtain ⟨s', hrun', h⟩ := hnext s hrun
  exact ⟨s', hrun', h.pc, h.regs, h.mem, h.ports, h.cycles, h.retired, h.outLog⟩

end Sys2Proof.Machine

/-! PROOF. The statements about the hazard-detection unit (40_hazard_detection.md): what a load-use stall is, what its cycle and
the two after it do, and the account of the EX slots that a cycle loses. -/

namespace Sys2Proof.Machine

/-! ### The hazard and the stall signal -/

section Hazard

variable {s : State}

/-- A register is among the sources of an instruction exactly where a field that its opcode reads names it (R132). -/
theorem mem_srcs_iff {r : RegIndex} {i : Instr} : r ∈ srcs i ↔
    (∃ g, (i = .add g ∨ i = .sub g ∨ i = .beq g) ∧ (g.ra = r ∨ g.rb = r)) ∨
    (∃ g, (i = .load g ∨ i = .out g) ∧ g.ra = r) ∨
    (∃ g, i = .store g ∧ (g.ra = r ∨ g.rd = r)) := by
  cases i <;> simp [srcs, eq_comm]

/-- The condition of R133: a LOAD in ID/EX and, in IF/ID, an instruction that reads its destination. -/
theorem hazard_iff : hazard s = true ↔
    ∃ e d f, s.idex = some e ∧ s.ifid = some d ∧ e.instr = .load f ∧ f.rd ∈ srcs d.instr := by
  unfold hazard
  split
  · rename_i e d he hd
    simp only [he, hd, Option.some.injEq, Bool.and_eq_true, isLoad_iff, List.contains_iff_mem]
    constructor
    · rintro ⟨⟨f, hf⟩, hmem⟩
      exact ⟨e, d, f, rfl, rfl, hf, by simpa [hf, Instr.fields] using hmem⟩
    · rintro ⟨_, _, f, rfl, rfl, hf, hmem⟩
      exact ⟨⟨f, hf⟩, by simpa [hf, Instr.fields] using hmem⟩
  · rename_i hnone
    simp only [Bool.false_eq_true, false_iff]
    rintro ⟨e, d, -, he, hd, -⟩
    exact hnone e d he hd

/-- An empty ID/EX makes no hazard (R133, R138). -/
theorem hazard_of_idex_none (h : s.idex = none) : hazard s = false := by simp [hazard, h]

/-- An empty ID/EX takes no transfer (R171). -/
theorem takenTarget_of_idex_none (h : s.idex = none) : takenTarget s = none := by simp [takenTarget, h]

/-- A LOAD in ID/EX takes no transfer (R134, R171). -/
theorem takenTarget_of_load {e : IdEx} {f : Fields} (he : s.idex = some e) (hl : e.instr = .load f) :
    takenTarget s = none := by
  simp [takenTarget, he, hl, exResult, exLoad]

/-- The instruction in EX cannot be both a LOAD and a taken transfer (R134). -/
theorem takenTarget_of_hazard (h : hazard s = true) : takenTarget s = none := by
  obtain ⟨e, d, f, he, -, hl, -⟩ := hazard_iff.mp h
  exact takenTarget_of_load he hl

/-- Hence the stall signal is the hazard, with or without the test for a taken transfer (R134). -/
theorem stallSignal_eq_hazard (s : State) : stallSignal s = hazard s := by
  unfold stallSignal stall
  cases hh : hazard s with
  | false => simp
  | true => simp [takenTarget_of_hazard hh]

end Hazard

/-! ### What a cycle does before the EX step -/

section Front

variable {s t : State}

/-- The ID step without a transfer and without a hazard decodes the occupant of IF/ID, if there is one (R205, R206). -/
theorem idStep_of_no_hazard {x : RegFile} (hh : hazard s = false) :
    idStep s x false = s.ifid.map fun d => capture x d.pc d.instr := by
  unfold idStep
  cases s.ifid <;> simp [hh]

/-- The ID step leaves ID/EX empty where a transfer is taken and on a hazard (R205, R207). -/
theorem idStep_eq_none {x : RegFile} {taken : Bool} (h : taken = true ∨ hazard s = true) : idStep s x taken = none := by
  unfold idStep
  split
  · rfl
  · rw [if_pos (by simpa using h)]

/-- All a cycle can do to IF/ID, ID/EX and `pc`: flush for a taken transfer, hold for a stall, or move on and fetch (R205 to
R207, R210, R211, R213). -/
theorem cycle_front (hr : s.running = true) (h : step s = .next t) :
    (∃ a, takenTarget s = some a ∧ t.ifid = none ∧ t.idex = none ∧ t.pc = a) ∨
    (takenTarget s = none ∧ hazard s = true ∧ t.ifid = s.ifid ∧ t.idex = none ∧ t.pc = s.pc) ∨
    (takenTarget s = none ∧ hazard s = false ∧ fetch s.cfg s.pc = .next (t.ifid, t.pc) ∧
      t.idex = s.ifid.map fun d => capture t.regs d.pc d.instr) := by
  have hid := cycle_idex hr h
  obtain ⟨a, ht, hf⟩ | ⟨ht, hh, hf⟩ | ⟨ht, hh, hf⟩ := ifStep_next (cycle_ifStep hr h)
  · obtain ⟨hifid, hpc⟩ := Prod.mk.inj hf
    exact .inl ⟨a, ht, hifid, hid.trans (idStep_eq_none (.inl (by simp [ht]))), hpc⟩
  · obtain ⟨hifid, hpc⟩ := Prod.mk.inj hf
    exact .inr (.inl ⟨ht, hh, hifid, hid.trans (idStep_eq_none (.inr hh)), hpc⟩)
  · rw [ht] at hid
    exact .inr (.inr ⟨ht, hh, hf, hid.trans (idStep_of_no_hazard hh)⟩)

/-- The cycle of a hazard: a bubble into ID/EX, IF/ID and `pc` held (R136). -/
theorem cycle_of_hazard (hr : s.running = true) (h : step s = .next t) (hh : hazard s = true) :
    t.idex = none ∧ t.ifid = s.ifid ∧ t.pc = s.pc := by
  obtain ⟨a, ht, -⟩ | ⟨-, -, hifid, hidex, hpc⟩ | ⟨-, hn, -⟩ := cycle_front hr h
  · rw [takenTarget_of_hazard hh] at ht
    cases ht
  · exact ⟨hidex, hifid, hpc⟩
  · rw [hh] at hn
    cases hn

/-- The cycle of a bubble in ID/EX decodes the occupant of IF/ID, whatever it is, and passes the bubble on (R138, R201). -/
theorem cycle_of_bubble (hr : s.running = true) (h : step s = .next t) (hb : s.idex = none) :
    t.exmem = none ∧ t.idex = s.ifid.map fun d => capture t.regs d.pc d.instr := by
  refine ⟨by simp [cycle_exmem hr h, nextExMem, hb], ?_⟩
  rw [cycle_idex hr h, takenTarget_of_idex_none hb]
  exact idStep_of_no_hazard (hazard_of_idex_none hb)

end Front

/-! ### The loaded word reaches the consumer -/

/-- A destination may be forwarded from under `forward`, and under either setting if it is not register 0 (R158). -/
theorem mayForward_of {c : Config} {r : RegIndex} (h : c.fwdZeroReg = .forward ∨ r ≠ 0) : mayForward c r = true := by
  obtain hz | hr := h
  · simp [mayForward, hz]
  · exact mayForward_of_ne_zero hr

/-- Every field that names the destination of an eligible producer in MEM/WB is that producer's result, whatever stands in
EX/MEM (R154, R155). -/
theorem forward_of_memwb {s : State} {e : IdEx} {w : MemWb} (hw : s.memwb = some w) (hb : writesBack w.instr = true)
    (hf : mayForward s.cfg w.instr.fields.rd = true) :
    (e.instr.fields.rd = w.instr.fields.rd → (forward s e).fd = w.res) ∧
    (e.instr.fields.ra = w.instr.fields.rd → (forward s e).fa = w.res) ∧
    (e.instr.fields.rb = w.instr.fields.rd → (forward s e).fb = w.res) := by
  simp only [forward, forwardMemWb, hw, hb, hf, Bool.and_self, if_true, replaceMatching]
  exact ⟨fun h => if_pos h, fun h => if_pos h, fun h => if_pos h⟩

/-! ### The account of one cycle -/

section Account

variable {s t : State}

/-- The program has a word at exactly the indices within its bounds (R24, R44). -/
theorem progWord_isNone (c : Config) (k : InstrIndex) : (progWord c k).isNone = !inBounds c k := by
  by_cases hk : k.toNat < c.prog.length <;> simp [progWord, inBounds, hk]

/-- A fetch leaves IF/ID empty exactly where it is past the end of the program (R213). -/
theorem fetch_isNone {c : Config} {pc : InstrIndex} {f : Option IfId × InstrIndex} (h : fetch c pc = .next f) :
    f.1.isNone = !inBounds c pc := by
  rw [← progWord_isNone]
  obtain ⟨hw, rfl⟩ | ⟨i, hi, rfl⟩ := fetch_next h
  · simp [hw]
  · cases hw : progWord c pc with
    | none => simp [progInstr, hw] at hi
    | some w => rfl

/-- The EX step and the MEM step neither add nor drop an occupant: what was in ID/EX and EX/MEM is behind the EX step after the
cycle (R198, R201). -/
theorem cycle_executedInFlight (hr : s.running = true) (h : step s = .next t) :
    t.executedInFlight = (if s.idex.isSome then 1 else 0) + (if s.exmem.isSome then 1 else 0) := by
  have hex : t.exmem.isSome = s.idex.isSome := by
    cases he : s.idex <;> simp [cycle_exmem hr h, nextExMem, he]
  have hwb : t.memwb.isSome = s.exmem.isSome := by
    obtain ⟨hm, hp⟩ | ⟨m, hm, ⟨-, v, -, hp⟩ | ⟨-, m', -, hp⟩ | ⟨-, -, hp⟩⟩ := memStep_next (cycle_memStep hr h) <;>
      simp [hm, (Prod.mk.inj hp).2]
  rw [State.executedInFlight, hex, hwb]

/-- The latches before the EX step are empty after a cycle where IF/ID was empty before it, and where the cycle loses a slot:
each of the three things a cycle can do there loses its own number of them (R136, R179, R213). -/
theorem cycle_emptySlots (hr : s.running = true) (h : step s = .next t) :
    t.emptySlots = (if s.ifid.isNone then 1 else 0) + s.lostSlots := by
  unfold State.emptySlots State.lostSlots
  obtain ⟨a, ht, hifid, hidex, -⟩ | ⟨ht, hh, hifid, hidex, -⟩ | ⟨ht, hh, hf, hidex⟩ := cycle_front hr h
  · cases hd : s.ifid <;> simp [ht, hifid, hidex]
  · simp [ht, hh, hifid, hidex]
  · rw [fetch_isNone hf, hidex]
    cases inBounds s.cfg s.pc <;> simp [ht, hh, Nat.add_comm]

end Account

/-! ### The statements -/

/-- Settles O27: the pair is a hazard, and the LOAD moves on as in any cycle. -/
theorem loadUseStalls : Obligations.LoadUseStalls := by
  intro s t e d f hr he hd hl hsrc h
  have hh : hazard s = true := hazard_iff.mpr ⟨e, d, f, he, hd, hl, hsrc⟩
  obtain ⟨hidex, hifid, hpc⟩ := cycle_of_hazard hr h hh
  exact ⟨hidex, hifid, hpc, hl ▸ cycle_exmem_of_load hr h he hl⟩

/-- Settles O28: a stall is a hazard, whose sources are enumerated field by field. -/
theorem onlyLoadUseStalls : Obligations.OnlyLoadUseStalls := by
  intro s hs
  obtain ⟨e, d, f, he, hd, hl, hsrc⟩ := hazard_iff.mp (stallSignal_eq_hazard s ▸ hs)
  exact ⟨e, d, f, he, hd, hl, mem_srcs_iff.mp hsrc⟩

/-- Settles O29: a LOAD is no transfer, and the bubble behind it makes no hazard. -/
theorem noHazardTwiceRunning : Obligations.NoHazardTwiceRunning := by
  intro s hh
  refine ⟨takenTarget_of_hazard hh, fun t hr h => ?_⟩
  obtain ⟨hidex, -, -⟩ := cycle_of_hazard hr h hh
  exact hazard_of_idex_none hidex

/-- Settles O30: the held consumer is decoded in the cycle of the bubble, in which the LOAD's MEM step reads the word; one cycle
later the consumer is in EX with the LOAD in MEM/WB. -/
theorem loadUseConsumerGetsTheLoadedWord : Obligations.LoadUseConsumerGetsTheLoadedWord := by
  intro s t u e d f hr he hd hl hsrc hz h hr' h'
  have hh : hazard s = true := hazard_iff.mpr ⟨e, d, f, he, hd, hl, hsrc⟩
  obtain ⟨hbubble, hheld, -⟩ := cycle_of_hazard hr h hh
  have hconsumer : u.idex = some (capture u.regs d.pc d.instr) := by
    simpa [hheld, hd] using (cycle_of_bubble hr' h' hbubble).2
  obtain ⟨v, hv, hp⟩ := memStep_load (cycle_exmem_of_load hr h he hl) rfl (cycle_memStep hr' h')
  have hproducer : u.memwb = some ⟨e.pc, .load f, v⟩ := (Prod.mk.inj hp).2
  have hforward : mayForward u.cfg f.rd = true := mayForward_of (by rwa [cycle_cfg hr' h', cycle_cfg hr h])
  refine ⟨(stallSignal_eq_hazard s).trans hh, (stallSignal_eq_hazard t).trans (hazard_of_idex_none hbubble),
    _, v, hconsumer, rfl, rfl, hv, ?_⟩
  exact forward_of_memwb (e := capture u.regs d.pc d.instr) hproducer rfl hforward

/-- Settles O54: `cycles` and `retired` by their own rules, the occupants behind the EX step and the empty slots before it by
what the cycle does to the latches. -/
theorem everyCycleIsAccountedFor : Obligations.EveryCycleIsAccountedFor := by
  intro s t hr h
  have hslots : (if s.idex.isSome then 1 else 0) + (if s.idex.isNone then 1 else 0) = 1 := by cases s.idex <;> rfl
  rw [cycle_cycles hr h, cycle_retired hr h, cycle_executedInFlight hr h, cycle_emptySlots hr h, State.emptySlots,
    State.executedInFlight]
  omega

end Sys2Proof.Machine

/-! PROOF. The statements about the forwarding unit (41_forwarding.md): each operand as the first answer of MEM/WB, EX/MEM and
the captured value (R151 to R155), and the two settings of FWD_ZERO_REG, which one lemma a stage shows to step alike where no
result is for register 0 (R158). -/

namespace Sys2Proof.Machine

/-! ### What a producer answers for a register -/

section Producer

variable {c : Config} {r : RegIndex} {i : Instr} {v : Word}

theorem mayForward_iff : mayForward c r = true ↔ c.fwdZeroReg = .forward ∨ r ≠ 0 := by
  unfold mayForward
  cases c.fwdZeroReg <;> simp

/-- The result `v` of the producer `i`, if it is one that the unit forwards to a field that names `r` (R152, R158). -/
def producedFor (c : Config) (r : RegIndex) (i : Instr) (v : Word) : Option Word :=
  if writesBack i && mayForward c i.fields.rd && i.fields.rd == r then some v else none

theorem producedFor_eq_some (hb : writesBack i = true) (hrd : i.fields.rd = r)
    (hz : c.fwdZeroReg = .forward ∨ r ≠ 0) : producedFor c r i v = some v := by
  simp [producedFor, hb, hrd, mayForward_iff.mpr hz]

theorem producedFor_eq_none (h : writesBack i = true → i.fields.rd = r → c.fwdZeroReg = .suppress ∧ r = 0) :
    producedFor c r i v = none := by
  refine if_neg fun hp => ?_
  simp only [Bool.and_eq_true, beq_iff_eq] at hp
  obtain ⟨⟨hb, hmay⟩, hrd⟩ := hp
  obtain ⟨hs, hr⟩ := h hb hrd
  simp [mayForward, hs, hrd, hr] at hmay

/-- Operands with the answers of a producer put over them, field by field (R152). -/
def overlay (answer : RegIndex → Option Word) (f : Fields) (o : Operands) : Operands where
  fd := (answer f.rd).getD o.fd
  fa := (answer f.ra).getD o.fa
  fb := (answer f.rb).getD o.fb

/-- A producer that passes the unit's test replaces exactly the fields for which it has an answer. -/
theorem replaceMatching_eq_overlay (f : Fields) (o : Operands) :
    (if writesBack i && mayForward c i.fields.rd then replaceMatching f i.fields.rd v o else o) =
      overlay (fun r => producedFor c r i v) f o := by
  have hfield : ∀ (r : RegIndex) (w : Word),
      (if i.fields.rd = r then some v else none).getD w = if r = i.fields.rd then v else w := fun r w => by
    by_cases h : r = i.fields.rd
    · simp [h]
    · simp [h, Ne.symm h]
  cases hp : writesBack i && mayForward c i.fields.rd <;> simp [overlay, producedFor, hp, replaceMatching, hfield]

end Producer

/-! ### Each operand of the EX step -/

section Operand

variable {s : State} {e : IdEx} {r : RegIndex} {v : Word}

/-- What step (b) has for a field that names `r`: the result of the instruction in MEM/WB (R154). -/
def memWbAnswer (s : State) (r : RegIndex) : Option Word :=
  s.memwb.bind fun w => producedFor s.cfg r w.instr w.res

/-- What step (a) has for a field that names `r`: the ALU result of the instruction in EX/MEM, a LOAD excepted (R153). -/
def exMemAnswer (s : State) (r : RegIndex) : Option Word :=
  s.exmem.bind fun m => if isLoad m.instr then none else producedFor s.cfg r m.instr m.alu

theorem forwardMemWb_eq (f : Fields) (o : Operands) :
    forwardMemWb s.cfg s.memwb f o = overlay (memWbAnswer s) f o := by
  unfold forwardMemWb memWbAnswer
  cases s.memwb with
  | none => rfl
  | some w => exact replaceMatching_eq_overlay f o

theorem forwardExMem_eq (f : Fields) (o : Operands) :
    forwardExMem s.cfg s.exmem f o = overlay (exMemAnswer s) f o := by
  unfold forwardExMem exMemAnswer
  cases s.exmem with
  | none => rfl
  | some m =>
    cases hl : isLoad m.instr with
    | false => simpa [hl] using replaceMatching_eq_overlay f o
    | true => simp [hl, overlay]

/-- The unit as two overlays over the captured values, that of MEM/WB on top (R155). -/
theorem forward_eq (s : State) (e : IdEx) :
    forward s e = overlay (memWbAnswer s) e.instr.fields (overlay (exMemAnswer s) e.instr.fields (captured e)) := by
  rw [forward, forwardMemWb_eq, forwardExMem_eq]

/-- The value of a field that names `r` and was captured as `v` (R151 to R155). -/
def operandValue (s : State) (r : RegIndex) (v : Word) : Word :=
  (memWbAnswer s r).getD ((exMemAnswer s r).getD v)

theorem forward_fd (s : State) (e : IdEx) : (forward s e).fd = operandValue s e.instr.fields.rd e.vd := by
  rw [forward_eq]
  rfl

theorem forward_fa (s : State) (e : IdEx) : (forward s e).fa = operandValue s e.instr.fields.ra e.va := by
  rw [forward_eq]
  rfl

theorem forward_fb (s : State) (e : IdEx) : (forward s e).fb = operandValue s e.instr.fields.rb e.vb := by
  rw [forward_eq]
  rfl

theorem memWbAnswer_eq_some {w : MemWb} (hw : s.memwb = some w) (hb : writesBack w.instr = true)
    (hrd : w.instr.fields.rd = r) (hz : s.cfg.fwdZeroReg = .forward ∨ r ≠ 0) : memWbAnswer s r = some w.res := by
  simp [memWbAnswer, hw, producedFor_eq_some hb hrd hz]

theorem memWbAnswer_eq_none (h : ∀ w, s.memwb = some w → writesBack w.instr = true → w.instr.fields.rd = r →
    s.cfg.fwdZeroReg = .suppress ∧ r = 0) : memWbAnswer s r = none :=
  Option.bind_eq_none_iff.mpr fun w hw => producedFor_eq_none (h w hw)

theorem exMemAnswer_eq_some {m : ExMem} (hm : s.exmem = some m) (hb : writesBack m.instr = true)
    (hl : isLoad m.instr = false) (hrd : m.instr.fields.rd = r) (hz : s.cfg.fwdZeroReg = .forward ∨ r ≠ 0) :
    exMemAnswer s r = some m.alu := by
  simp [exMemAnswer, hm, hl, producedFor_eq_some hb hrd hz]

theorem exMemAnswer_eq_none (h : ∀ m, s.exmem = some m → writesBack m.instr = true → isLoad m.instr = false →
    m.instr.fields.rd = r → s.cfg.fwdZeroReg = .suppress ∧ r = 0) : exMemAnswer s r = none := by
  refine Option.bind_eq_none_iff.mpr fun m hm => ?_
  cases hl : isLoad m.instr with
  | true => rfl
  | false => exact producedFor_eq_none fun hb => h m hm hb hl

theorem operandValue_of_memWb {u : Word} (h : memWbAnswer s r = some u) : operandValue s r v = u := by
  simp [operandValue, h]

theorem operandValue_of_exMem {u : Word} (hw : memWbAnswer s r = none) (hm : exMemAnswer s r = some u) :
    operandValue s r v = u := by
  simp [operandValue, hw, hm]

theorem operandValue_of_none (hw : memWbAnswer s r = none) (hm : exMemAnswer s r = none) : operandValue s r v = v := by
  simp [operandValue, hw, hm]

end Operand

/-! ### An ADD directly behind an ADD -/

section BackToBack

variable {s t : State}

/-- Only a LOAD in ID/EX makes a hazard (R133). -/
theorem hazard_of_not_isLoad {e : IdEx} (he : s.idex = some e) (hl : isLoad e.instr = false) : hazard s = false := by
  unfold hazard
  cases s.ifid <;> simp [he, hl]

/-- The cycle of an ADD in EX: its sum moves on to EX/MEM, and the instruction behind it is decoded (R206, R230). -/
theorem cycle_of_add {e : IdEx} {f : Fields} (hr : s.running = true) (h : step s = .next t) (he : s.idex = some e)
    (hadd : e.instr = .add f) :
    t.exmem = some ⟨e.pc, .add f, (forward s e).fa + (forward s e).fb, 0⟩ ∧
      t.idex = s.ifid.map fun d => capture t.regs d.pc d.instr := by
  have hh : hazard s = false := hazard_of_not_isLoad he (by rw [hadd]; rfl)
  have ht : takenTarget s = none := by simp [takenTarget, he, hadd, exResult, exAdd]
  refine ⟨by simp [cycle_exmem hr h, nextExMem, he, hadd, exResult, exAdd], ?_⟩
  rw [cycle_idex hr h, ht]
  exact idStep_of_no_hazard hh

/-- An instruction in EX/MEM that does not write back is no producer in the next cycle's MEM/WB (R154, R198). -/
theorem cycle_memWbAnswer_eq_none (hr : s.running = true) (h : step s = .next t)
    (hm : ∀ m, s.exmem = some m → writesBack m.instr = false) (r : RegIndex) : memWbAnswer t r = none := by
  refine memWbAnswer_eq_none fun w hw hb => ?_
  have hmem := cycle_memStep hr h
  rw [hw] at hmem
  obtain ⟨m, hx, -, hinstr⟩ := memStep_occupant hmem
  rw [hinstr, hm m hx] at hb
  cases hb

end BackToBack

/-! ### The other setting of FWD_ZERO_REG, stage by stage -/

section ZeroSetting

variable {s t : State} (z : FwdZeroReg)

/-- A producer whose destination is not register 0 answers alike under both settings (R158). -/
theorem producedFor_of_avoidsZero {c c' : Config} {i : Instr} (h : avoidsZero i) (r : RegIndex) (v : Word) :
    producedFor c' r i v = producedFor c r i v := by
  unfold producedFor
  cases hb : writesBack i with
  | false => rfl
  | true => rw [mayForward_of_ne_zero (h hb), mayForward_of_ne_zero (h hb)]

theorem NoZeroResults.memWbAnswer_eq (h : NoZeroResults s) : memWbAnswer (s.withZeroSetting z) = memWbAnswer s :=
  funext fun r => Option.bind_congr fun w hw => producedFor_of_avoidsZero (h.memwb w hw) r w.res

theorem NoZeroResults.exMemAnswer_eq (h : NoZeroResults s) : exMemAnswer (s.withZeroSetting z) = exMemAnswer s := by
  refine funext fun r => Option.bind_congr fun m hm => ?_
  rw [producedFor_of_avoidsZero (h.exmem m hm)]

/-- The EX step gets the same operands (R155). -/
theorem NoZeroResults.forward_eq (h : NoZeroResults s) (e : IdEx) : forward (s.withZeroSetting z) e = forward s e := by
  rw [Machine.forward_eq, Machine.forward_eq, h.memWbAnswer_eq, h.exMemAnswer_eq]

/-- The EX step reads the Label Table and no setting. -/
theorem exResult_withZeroSetting (s : State) (i : Instr) (o : Operands) :
    exResult (s.withZeroSetting z).cfg i o = exResult s.cfg i o := by
  cases i <;> rfl

theorem NoZeroResults.takenTarget_eq (h : NoZeroResults s) : takenTarget (s.withZeroSetting z) = takenTarget s := by
  simp only [takenTarget, withZeroSetting_idex, exResult_withZeroSetting, h.forward_eq]

theorem NoZeroResults.nextExMem_eq (h : NoZeroResults s) : nextExMem (s.withZeroSetting z) = nextExMem s := by
  simp only [nextExMem, withZeroSetting_idex, exResult_withZeroSetting, h.forward_eq]

/-- `t'` is `t` under the setting `z`. -/
def isUnderSetting (z : FwdZeroReg) (t t' : State) : Prop := t' = t.withZeroSetting z

theorem withZeroSetting_nPorts (s : State) : (s.withZeroSetting z).cfg.nPorts = s.cfg.nPorts := rfl

theorem commit_withZeroSetting (s : State) (w : MemWb) :
    OutcomesAgree (isUnderSetting z) (commit s w) (commit (s.withZeroSetting z) w) := by
  unfold commit writePort
  split
  · exact .next rfl
  · split
    · rw [withZeroSetting_nPorts]
      cases portIndex s.cfg.nPorts w.instr.fields.imm with
      | none => exact .refused _
      | some k => exact .next rfl
    · exact .next rfl

theorem wbStep_withZeroSetting (s : State) :
    OutcomesAgree (isUnderSetting z) (wbStep s) (wbStep (s.withZeroSetting z)) := by
  unfold wbStep
  rw [withZeroSetting_memwb]
  cases s.memwb with
  | none => exact .next rfl
  | some w =>
    refine (commit_withZeroSetting z s w).andThen ?_
    rintro t _ rfl
    exact .next rfl

/-- MEM, ID and IF read no setting. -/
theorem memStep_withZeroSetting (s : State) : memStep (s.withZeroSetting z) = memStep s := rfl

theorem idStep_withZeroSetting (s : State) : idStep (s.withZeroSetting z) = idStep s := rfl

theorem ifStep_withZeroSetting (s : State) : ifStep (s.withZeroSetting z) = ifStep s := rfl

/-- With the same results of the EX step, the rest of the cycle is the same. -/
theorem finishCycle_withZeroSetting (s : State) (ex : Option ExMem) (redirect : Option InstrIndex) :
    OutcomesAgree (isUnderSetting z) (finishCycle s ex redirect) (finishCycle (s.withZeroSetting z) ex redirect) := by
  unfold finishCycle
  rw [memStep_withZeroSetting, ifStep_withZeroSetting, idStep_withZeroSetting]
  refine (wbStep_withZeroSetting z s).andThen ?_
  rintro u _ rfl
  refine (OutcomesAgree.refl _).andThen ?_
  rintro p _ rfl
  refine (OutcomesAgree.refl _).andThen ?_
  rintro f _ rfl
  exact .next rfl

/-- A step under the other setting: refused, held or performed alike. -/
theorem NoZeroResults.step_agrees (h : NoZeroResults s) :
    OutcomesAgree (isUnderSetting z) (step s) (step (s.withZeroSetting z)) := by
  have hload : loadProblem (s.withZeroSetting z).cfg = loadProblem s.cfg := rfl
  have hended : ((s.withZeroSetting z).done || (s.withZeroSetting z).capped) = (s.done || s.capped) := rfl
  cases hl : loadProblem s.cfg with
  | some r =>
    rw [step_of_loadProblem hl, step_of_loadProblem (hload.trans hl)]
    exact .refused r
  | none =>
    by_cases hd : (s.done || s.capped) = true
    · rw [step_of_ended hl hd, step_of_ended (hload.trans hl) (hended.trans hd)]
      exact .next rfl
    · have hr : s.running = true := running_of_not_ended hl hd
      rw [step_of_running hr, step_of_running ((withZeroSetting_running s z).trans hr), h.nextExMem_eq, h.takenTarget_eq]
      exact finishCycle_withZeroSetting z s _ _

end ZeroSetting

/-! ### No result for register 0 -/

section NoZero

variable {s t : State}

/-- An instruction of the program stands there as a word. -/
theorem progInstr_eq_some {c : Config} {k : InstrIndex} {i : Instr} (h : progInstr c k = some i) :
    ∃ w ∈ c.prog, decode w = .ok i := by
  unfold progInstr progWord at h
  split at h
  · cases h
  · rename_i w hw
    split at h
    · rename_i j hj
      exact ⟨w, List.mem_of_getElem? hw, Option.some.inj h ▸ hj⟩
    · cases h

/-- An occupant of a latch comes from the latch before it, one of IF/ID from the program. -/
theorem cycle_keeps_noZeroResults (hz : NoZeroResults s) (hr : s.running = true) (h : step s = .next t) :
    NoZeroResults t where
  program := cycle_cfg hr h ▸ hz.program
  ifid d hd := by
    have hif := cycle_ifStep hr h
    rw [hd] at hif
    obtain hheld | hfetched := ifStep_occupant hif
    · exact hz.ifid d hheld
    · obtain ⟨w, hw, hdecode⟩ := progInstr_eq_some hfetched
      exact hz.program w hw d.instr hdecode
  idex e he := by
    rw [cycle_idex hr h] at he
    obtain ⟨d, hd, -, -, rfl⟩ := idStep_eq_some he
    exact hz.ifid d hd
  exmem m hm := by
    rw [cycle_exmem hr h] at hm
    obtain ⟨e, he, -, hinstr⟩ := nextExMem_eq_some hm
    exact hinstr ▸ hz.idex e he
  memwb w hw := by
    have hmem := cycle_memStep hr h
    rw [hw] at hmem
    obtain ⟨m, hm, -, hinstr⟩ := memStep_occupant hmem
    exact hinstr ▸ hz.exmem m hm

theorem step_keeps_noZeroResults (hz : NoZeroResults s) (h : step s = .next t) : NoZeroResults t := by
  obtain ⟨-, rfl⟩ | hr := step_holds_or_runs h
  · exact hz
  · exact cycle_keeps_noZeroResults hz hr h

/-- At reset the latches are empty: the premise is about the program alone. -/
theorem resetWith_noZeroResults {c : Config} (h : ∀ w ∈ c.prog, ∀ i, decode w = .ok i → avoidsZero i) :
    NoZeroResults (State.resetWith c) where
  program := h
  ifid _ h := nomatch h
  idex _ h := nomatch h
  exmem _ h := nomatch h
  memwb _ h := nomatch h

end NoZero

/-! ### The statements -/

/-- Settles O55: the two steps agree stage by stage, and a cycle fills the latches from the program and one another. -/
theorem stepCommutesWithZeroSetting : Obligations.StepCommutesWithZeroSetting := by
  intro s z hz
  obtain ⟨hnext, hfault, hrefused⟩ := (hz.step_agrees z).forwards
  refine ⟨fun t h => ?_, hfault, hrefused⟩
  obtain ⟨_, h', rfl⟩ := hnext t h
  exact ⟨step_keeps_noZeroResults hz h, h'⟩

/-- Any number of steps, by induction on it. -/
theorem run_withZeroSetting {s t : State} (z : FwdZeroReg) (n : Nat) (hz : NoZeroResults s)
    (h : Host.Core.run core n s = .next t) :
    Host.Core.run core n (s.withZeroSetting z) = .next (t.withZeroSetting z) := by
  induction n generalizing s with
  | zero =>
    cases h
    rfl
  | succ n ih =>
    rw [run_succ] at h ⊢
    obtain ⟨u, hu, hrest⟩ := andThen_eq_next.mp h
    obtain ⟨hnext, -, -⟩ := stepCommutesWithZeroSetting s z hz
    obtain ⟨huz, hu'⟩ := hnext u hu
    exact andThen_eq_next.mpr ⟨_, hu', ih huz hrest⟩

/-- Settles O33: the run from reset under `suppress` is that of the same state under the other setting. -/
theorem zeroRegisterSettingsAgree : Obligations.ZeroRegisterSettingsAgree :=
  fun c n _ hprog hrun =>
    run_withZeroSetting .suppress n (resetWith_noZeroResults (c := { c with fwdZeroReg := .forward }) hprog) hrun

/-- Settles O31: the three fields have their value by one function of the register they name and the value captured. -/
theorem forwardingPriority : Obligations.ForwardingPriority := by
  intro s e r captured got hfield
  have hgot : got = operandValue s r captured := by
    obtain ⟨rfl, rfl, rfl⟩ | ⟨rfl, rfl, rfl⟩ | ⟨rfl, rfl, rfl⟩ := hfield
    · exact forward_fd s e
    · exact forward_fa s e
    · exact forward_fb s e
  rw [hgot]
  refine ⟨fun w hw hb hrd hz => operandValue_of_memWb (memWbAnswer_eq_some hw hb hrd hz), fun hnoWb => ?_⟩
  have hwb : memWbAnswer s r = none := memWbAnswer_eq_none hnoWb
  exact ⟨fun m hm hb hl hrd hz => operandValue_of_exMem hwb (exMemAnswer_eq_some hm hb hl hrd hz),
    fun hnoEx => operandValue_of_none hwb (exMemAnswer_eq_none hnoEx)⟩

/-- Settles O32: in the next cycle the first ADD is the one producer, with its sum in EX/MEM. -/
theorem backToBackSumIsForwarded : Obligations.BackToBackSumIsForwarded := by
  intro s t e d f g hr he hadd hd hadd' hra hrb hz hnoWb h
  have hh : hazard s = false := hazard_of_not_isLoad he (by rw [hadd]; rfl)
  obtain ⟨hsum, hidex⟩ := cycle_of_add hr h he hadd
  have hwb : ∀ r, memWbAnswer t r = none := cycle_memWbAnswer_eq_none hr h hnoWb
  have hconsumer : t.idex = some (capture t.regs d.pc (.add g)) := by simp [hidex, hd, hadd']
  have hz' : t.cfg.fwdZeroReg = .forward ∨ g.ra ≠ 0 := by rwa [cycle_cfg hr h, hra]
  have hfirst : exMemAnswer t g.ra = some ((forward s e).fa + (forward s e).fb) :=
    exMemAnswer_eq_some hsum rfl rfl hra.symm hz'
  have hsecond : exMemAnswer t g.rb = none := exMemAnswer_eq_none fun m hm _ _ hrd => by
    cases hsum.symm.trans hm
    exact absurd hrd.symm hrb
  refine ⟨(stallSignal_eq_hazard s).trans hh, _, hconsumer, rfl, ?_, ?_⟩
  · exact (forward_fa t _).trans (operandValue_of_exMem (hwb g.ra) hfirst)
  · exact (forward_fb t _).trans (operandValue_of_none (hwb g.rb) hsecond)

end Sys2Proof.Machine

/-! PROOF. The statements about the branch-resolution and flush unit (42_branch_flush.md): when a transfer is taken, what its
cycle and the two behind it do, and the cycle of an untaken transfer, which is that of a NOP: with the same hazard and the same
results of the EX step, a cycle does not depend on the occupant of ID/EX. -/

namespace Sys2Proof.Machine

section Transfer

variable {s t : State} {e : IdEx} {f : Fields} {a : InstrIndex}

/-! ### When a transfer is taken -/

/-- No opcode but BEQ and JUMP has a target (R171). -/
theorem exResult_redirect_of_no_transfer {c : Config} {i : Instr} {o : Operands}
    (h : ∀ f, i ≠ .beq f ∧ i ≠ .jump f) : (exResult c i o).redirect = none := by
  cases i with
  | beq f => exact absurd rfl (h f).1
  | jump f => exact absurd rfl (h f).2
  | add f | sub f | load f | store f | out f | set f | nop f => rfl

theorem takenTarget_of_no_transfer (h : ∀ e f, s.idex = some e → e.instr ≠ .beq f ∧ e.instr ≠ .jump f) :
    takenTarget s = none := by
  unfold takenTarget
  split
  · rename_i e he
    exact exResult_redirect_of_no_transfer fun f => h e f he
  · rfl

theorem takenTarget_of_beq (he : s.idex = some e) (hi : e.instr = .beq f) :
    takenTarget s = if (forward s e).fa = (forward s e).fb then labelTarget s.cfg f.lab else none := by
  simp [takenTarget, he, hi, exResult, exBeq, equalValues]

theorem takenTarget_of_jump (he : s.idex = some e) (hi : e.instr = .jump f) :
    takenTarget s = labelTarget s.cfg f.lab := by
  simp [takenTarget, he, hi, exResult, exJump]

/-- A transfer moves on to EX/MEM with the zeros of D10, taken or not (R180, R201). -/
theorem nextExMem_of_transfer (he : s.idex = some e) (hi : e.instr = .beq f ∨ e.instr = .jump f) :
    nextExMem s = some ⟨e.pc, e.instr, 0, 0⟩ := by
  obtain hi | hi := hi <;> simp [nextExMem, he, hi, exResult, exBeq, exJump]

/-- A transfer in ID/EX makes no hazard (R133). -/
theorem hazard_of_transfer (he : s.idex = some e) (hi : e.instr = .beq f ∨ e.instr = .jump f) : hazard s = false := by
  refine hazard_of_not_isLoad he ?_
  obtain hi | hi := hi <;> rw [hi] <;> rfl

/-! ### The cycle of a taken transfer -/

/-- `exec` of the occupant of ID/EX is the cycle of the snapshot. -/
theorem exec_of_idex (he : s.idex = some e) : exec e.instr s = finishCycle s (nextExMem s) (takenTarget s) := by
  simp [exec_eq, nextExMem, takenTarget, he, issue_of_idex he, exSlot_of_idex he]

/-- A cycle with a target redirects `pc` and flushes both latches before the EX step (R177, R178). -/
theorem finishCycle_flushes {ex : Option ExMem} (h : finishCycle s ex (some a) = .next t) :
    t.pc = a ∧ t.ifid = none ∧ t.idex = none ∧ t.exmem = ex := by
  obtain ⟨u, p, f, -, -, hf, rfl⟩ := finishCycle_next.mp h
  cases hf
  exact ⟨rfl, rfl, idStep_eq_none (.inl rfl), rfl⟩

/-- Where no other stage stops the cycle, a taken transfer completes, flushes and moves on. -/
theorem exec_of_taken (he : s.idex = some e) (hi : e.instr = .beq f ∨ e.instr = .jump f) (hok : s.cycleOk = true)
    (ht : takenTarget s = some a) :
    ∃ t, exec e.instr s = .next t ∧ t.pc = a ∧ t.ifid = none ∧ t.idex = none ∧ t.exmem = some ⟨e.pc, e.instr, 0, 0⟩ := by
  rw [exec_of_idex he, ht, nextExMem_of_transfer he hi]
  obtain ⟨t, h⟩ := finishCycle_completes hok (some ⟨e.pc, e.instr, 0, 0⟩) (some a)
  exact ⟨t, h, finishCycle_flushes h⟩

theorem cycle_of_taken (hr : s.running = true) (h : step s = .next t) (ht : takenTarget s = some a) :
    t.pc = a ∧ t.ifid = none ∧ t.idex = none := by
  rw [step_of_running hr, ht] at h
  obtain ⟨hpc, hifid, hidex, -⟩ := finishCycle_flushes h
  exact ⟨hpc, hifid, hidex⟩

/-! ### The cycles behind it -/

/-- Within the program a fetch takes the instruction at `pc` (R213). -/
theorem fetch_of_progInstr {c : Config} {pc : InstrIndex} {i : Instr} (h : progInstr c pc = some i) :
    fetch c pc = .next (some ⟨pc, i⟩, pc + 1) := by
  unfold progInstr at h
  split at h
  · cases h
  · rename_i w hw
    split at h
    · rename_i j hj
      cases h
      simp [fetch, hw, hj]
    · cases h

/-- Behind an empty ID/EX nothing holds the fetch up (R138, R213). -/
theorem cycle_fetches_of_bubble (hr : s.running = true) (h : step s = .next t) (hb : s.idex = none) :
    fetch s.cfg s.pc = .next (t.ifid, t.pc) := by
  obtain ⟨a, ht, -⟩ | ⟨-, hh, -⟩ | ⟨-, -, hf, -⟩ := cycle_front hr h
  · cases (takenTarget_of_idex_none hb).symm.trans ht
  · cases (hazard_of_idex_none hb).symm.trans hh
  · exact hf

end Transfer

/-! ### The cycle and the occupant of ID/EX -/

section Replace

variable {s t : State} {x : Option IdEx} {ex : Option ExMem} {r : Option InstrIndex}

/-- `s` with `x` in place of what is in ID/EX. -/
def State.withIdEx (x : Option IdEx) (s : State) : State := { s with idex := x }

@[simp] theorem withIdEx_cfg (x : Option IdEx) (s : State) : (s.withIdEx x).cfg = s.cfg := rfl
@[simp] theorem withIdEx_idex (x : Option IdEx) (s : State) : (s.withIdEx x).idex = x := rfl
@[simp] theorem withIdEx_memwb (x : Option IdEx) (s : State) : (s.withIdEx x).memwb = s.memwb := rfl

/-- A commit hands ID/EX on as it is (R195). -/
theorem commit_withIdEx (w : MemWb) :
    commit (s.withIdEx x) w = andThen (commit s w) fun u => .next (u.withIdEx x) := by
  unfold commit writePort
  split
  · rfl
  · split
    · rw [withIdEx_cfg]
      cases portIndex s.cfg.nPorts w.instr.fields.imm <;> rfl
    · rfl

/-- The WB step hands ID/EX on as it is (R192). -/
theorem wbStep_withIdEx : wbStep (s.withIdEx x) = andThen (wbStep s) fun u => .next (u.withIdEx x) := by
  unfold wbStep
  rw [withIdEx_memwb]
  split
  · rfl
  · rw [commit_withIdEx]
    cases commit s _ <;> rfl

/-- With the same hazard and the same results of the EX step, a cycle does not depend on the occupant of ID/EX. -/
theorem finishCycle_withIdEx (hh : hazard (s.withIdEx x) = hazard s) :
    finishCycle (s.withIdEx x) ex r = finishCycle s ex r := by
  have hmem : memStep (s.withIdEx x) = memStep s := rfl
  have hif : ifStep (s.withIdEx x) r = ifStep s r := by
    unfold ifStep stall
    rw [hh]
    rfl
  have hid : idStep (s.withIdEx x) = idStep s := by
    unfold idStep
    rw [hh]
    rfl
  unfold finishCycle
  rw [wbStep_withIdEx, hmem, hif, hid]
  cases wbStep s <;> rfl

/-- What the EX step hands to EX/MEM reaches no other piece of the next state. -/
theorem finishCycle_exmem (h : finishCycle s ex r = .next t) (ex' : Option ExMem) :
    finishCycle s ex' r = .next { t with exmem := ex' } := by
  obtain ⟨u, p, f, hu, hp, hf, rfl⟩ := finishCycle_next.mp h
  exact finishCycle_next.mpr ⟨u, p, f, hu, hp, hf, rfl⟩

/-- The cycle of an untaken transfer with a NOP `n` in its place: the same but for EX/MEM (R173, R181). -/
theorem exec_nop_of_untaken {e n : IdEx} {f g : Fields} (he : s.idex = some e)
    (hi : e.instr = .beq f ∨ e.instr = .jump f) (ht : takenTarget s = none) (h : exec e.instr s = .next t)
    (hn : n.instr = .nop g) :
    exec n.instr (s.withIdEx (some n)) = .next { t with exmem := nextExMem (s.withIdEx (some n)) } := by
  have hx : (s.withIdEx (some n)).idex = some n := withIdEx_idex _ s
  have hh : hazard (s.withIdEx (some n)) = hazard s :=
    (hazard_of_not_isLoad hx (by rw [hn]; rfl)).trans (hazard_of_transfer he hi).symm
  have ht' : takenTarget (s.withIdEx (some n)) = none := by simp [takenTarget, hn, exResult, exNop]
  rw [exec_of_idex he, ht] at h
  rw [exec_of_idex hx, ht', finishCycle_withIdEx hh]
  exact finishCycle_exmem h _

end Replace

/-! ### The statements -/

/-- Settles O34: without a target the IF step holds `pc` or fetches. -/
theorem onlyTransfersRedirect : Obligations.OnlyTransfersRedirect := by
  intro s hno
  have ht : takenTarget s = none := takenTarget_of_no_transfer hno
  refine ⟨ht, fun t h => ?_⟩
  obtain ⟨-, rfl⟩ | hr := step_holds_or_runs h
  · exact .inl rfl
  · obtain ⟨a, ht', -⟩ | ⟨-, -, -, -, hpc⟩ | ⟨-, -, hf, -⟩ := cycle_front hr h
    · cases ht.symm.trans ht'
    · exact .inl hpc
    · obtain ⟨-, hf⟩ | ⟨i, -, hf⟩ := fetch_next hf
      · exact .inl (Prod.mk.inj hf).2
      · exact .inr (Prod.mk.inj hf).2

/-- Settles O35: a BEQ's target by its EX result, and its cycle as that of any taken transfer. -/
theorem beqResolves : Obligations.BeqResolves := by
  intro s e f he hi
  have htarget := takenTarget_of_beq he hi
  refine ⟨htarget, fun a hok heq hlab => ?_⟩
  have ht : takenTarget s = some a := by rw [htarget, if_pos heq, hlab]
  exact hi ▸ exec_of_taken he (.inl hi) hok ht

/-- Settles O36: a JUMP's target by its EX result, and its cycle as that of any taken transfer. -/
theorem jumpResolves : Obligations.JumpResolves := by
  intro s e f he hi
  have htarget := takenTarget_of_jump he hi
  exact ⟨htarget, fun a hok hlab => hi ▸ exec_of_taken he (.inr hi) hok (htarget.trans hlab)⟩

/-- Settles O37: neither cycle has a hazard or a target, so they differ in what they hand to EX/MEM. -/
theorem untakenTransferActsAsNop : Obligations.UntakenTransferActsAsNop := by
  intro s t t' e f he hi ht h h'
  have hnop := exec_nop_of_untaken (n := { e with instr := .nop f }) he hi ht h rfl
  cases hnop.symm.trans h'
  exact ⟨rfl, rfl, rfl, rfl, rfl, rfl, rfl, rfl, rfl⟩

/-- Settles O38: the flush empties both latches, the second cycle fetches at the target behind the first bubble, and the third
decodes that fetch behind the second. -/
theorem takenTransferLeavesTwoBubbles : Obligations.TakenTransferLeavesTwoBubbles := by
  intro s t u v a ht hr h hr' h' hr'' h''
  obtain ⟨hpc, hifid, hidex⟩ := cycle_of_taken hr h ht
  have hidex' : u.idex = none := by simpa [hifid] using (cycle_of_bubble hr' h' hidex).2
  have hdecode := (cycle_of_bubble hr'' h'' hidex').2
  have hfetch : fetch s.cfg a = .next (u.ifid, u.pc) := by
    rw [← cycle_cfg hr h, ← hpc]
    exact cycle_fetches_of_bubble hr' h' hidex
  refine ⟨hidex, hifid, hpc, hidex', fun i hi => ?_, fun hend => ?_⟩
  · have hfetched : u.ifid = some ⟨a, i⟩ :=
      (Prod.mk.inj (Host.Outcome.next.inj (hfetch.symm.trans (fetch_of_progInstr hi)))).1
    rw [hfetched] at hdecode
    exact ⟨hfetched, _, hdecode, rfl, rfl⟩
  · obtain ⟨hnone, hpc'⟩ := Prod.mk.inj (Host.Outcome.next.inj (hfetch.symm.trans (fetch_past_end hend)))
    rw [hnone] at hdecode
    exact ⟨hpc', hnone, hdecode⟩

end Sys2Proof.Machine

/-! PROOF. The statements about the stage-advance protocol (43_stage_advance.md): what each stage does in every cycle, the frame of
exec, how a driven run ends, and the agreement with the sequential reading. -/

namespace Sys2Proof.Machine

/-! ### The WB step, by what MEM/WB holds -/

section WriteBack

variable {s t : State} {w : MemWb}

/-- Re-asserting the zero register leaves the others alone (R22). -/
theorem read_assertZero_of_ne {x : RegFile} {r : RegIndex} (h0 : r ≠ 0) : x.assertZero.read r = x.read r :=
  (read_assertZero x r).trans (if_neg h0)

/-- The register file after a WB step that writes back (R195). -/
theorem wbStep_read_of_writesBack (h : wbStep s = .next t) (hw : s.memwb = some w) (hb : writesBack w.instr = true)
    (r : RegIndex) : t.reg r = if r = 0 then 0 else if r = w.instr.fields.rd then w.res else s.reg r := by
  obtain ⟨hn, -⟩ | ⟨x, hx, hcase⟩ := wbStep_next h
  · cases hn.symm.trans hw
  · cases hx.symm.trans hw
    obtain ⟨-, rfl⟩ | ⟨ho, -⟩ | ⟨hn, -⟩ := hcase
    · simp [State.reg]
    · cases ho.symm.trans (writesBack_not_isOut hb)
    · cases hn.symm.trans hb

/-- A register other than 0 that is no destination in MEM/WB holds its value (R192). -/
theorem wbStep_read_of_not_written (h : wbStep s = .next t) {r : RegIndex} (h0 : r ≠ 0)
    (hr : ∀ w, s.memwb = some w → writesBack w.instr = true → w.instr.fields.rd ≠ r) : t.reg r = s.reg r := by
  obtain ⟨-, rfl⟩ | ⟨x, hx, ⟨hb, rfl⟩ | ⟨-, k, -, rfl⟩ | ⟨-, -, rfl⟩⟩ := wbStep_next h
  · exact read_assertZero_of_ne h0
  · exact (read_assertZero_of_ne h0).trans (by rw [read_write, if_neg (hr x hx hb).symm, State.reg])
  · exact read_assertZero_of_ne h0
  · exact read_assertZero_of_ne h0

/-- The register file after a WB step that does not write back (R195). -/
theorem wbStep_read_of_no_writesBack (h : wbStep s = .next t)
    (hb : ∀ w, s.memwb = some w → writesBack w.instr = false) (r : RegIndex) :
    t.reg r = if r = 0 then 0 else s.reg r := by
  split
  next h0 => exact h0 ▸ wbStep_zero h
  next h0 =>
    refine wbStep_read_of_not_written h h0 fun w hw hb' => ?_
    cases hb'.symm.trans (hb w hw)

/-- Ports and history after the WB step of an OUT (R195, R291). -/
theorem wbStep_outputs_of_out (h : wbStep s = .next t) (hw : s.memwb = some w) (ho : isOut w.instr = true) :
    ∃ k, portIndex s.cfg.nPorts w.instr.fields.imm = some k ∧ t.ports = s.ports.set k w.res ∧
      t.outLog = s.outLog ++ [⟨s.cycles + 1, k, w.res⟩] := by
  obtain ⟨hn, -⟩ | ⟨x, hx, hcase⟩ := wbStep_next h
  · cases hn.symm.trans hw
  · cases hx.symm.trans hw
    obtain ⟨hb, -⟩ | ⟨-, k, hk, rfl⟩ | ⟨-, hn, -⟩ := hcase
    · cases ho.symm.trans (writesBack_not_isOut hb)
    · exact ⟨k, hk, rfl, rfl⟩
    · cases hn.symm.trans ho

/-- Without an OUT the WB step leaves ports and history alone (R192). -/
theorem wbStep_outputs_of_no_out (h : wbStep s = .next t) (ho : ∀ w, s.memwb = some w → isOut w.instr = false) :
    t.ports = s.ports ∧ t.outLog = s.outLog := by
  obtain ⟨-, rfl⟩ | ⟨x, hx, ⟨-, rfl⟩ | ⟨hn, -⟩ | ⟨-, -, rfl⟩⟩ := wbStep_next h
  · exact ⟨rfl, rfl⟩
  · exact ⟨rfl, rfl⟩
  · cases hn.symm.trans (ho x hx)
  · exact ⟨rfl, rfl⟩

/-- A port that no OUT in MEM/WB names holds its value (R192). -/
theorem wbStep_port_of_not_named (h : wbStep s = .next t) {k : Nat} (hk : ∀ w, s.memwb = some w →
    isOut w.instr = true → portIndex s.cfg.nPorts w.instr.fields.imm ≠ some k) : t.port k = s.port k := by
  obtain ⟨-, rfl⟩ | ⟨x, hx, ⟨-, rfl⟩ | ⟨ho, j, hj, rfl⟩ | ⟨-, -, rfl⟩⟩ := wbStep_next h
  · rfl
  · rfl
  · have hjk : j ≠ k := fun hjk => hk x hx ho (hjk ▸ hj)
    simp [State.port, List.getElem?_set_ne hjk]
  · rfl

/-- A performed cycle commits as its WB step does: registers, ports and history at its end (R191, R195). -/
theorem cycle_commits (hr : s.running = true) (h : step s = .next t) :
    ∃ u, wbStep s = .next u ∧ (∀ r, t.reg r = u.reg r) ∧ t.ports = u.ports ∧ t.outLog = u.outLog := by
  obtain ⟨u, hu, -, -, -, -, -, -, hregs, hports, hlog, -⟩ := cycle_stages hr h
  exact ⟨u, hu, fun r => congrArg (RegFile.read · r) hregs, hports, hlog⟩

end WriteBack

/-! ### The MEM step, by what EX/MEM holds -/

section Mem

variable {s : State} {m : ExMem} {p : Memory × Option MemWb}

theorem memStep_of_none (hm : s.exmem = none) (h : memStep s = .next p) : p = (s.mem, none) := by
  simpa [memStep, hm] using h.symm

/-- Every opcode but LOAD hands its ALU result on to MEM/WB (R198). -/
theorem memStep_result_of_not_isLoad (hm : s.exmem = some m) (hl : isLoad m.instr = false) (h : memStep s = .next p) :
    p.2 = some ⟨m.pc, m.instr, m.alu⟩ := by
  obtain ⟨hn, -⟩ | ⟨x, hx, hcase⟩ := memStep_next h
  · cases hn.symm.trans hm
  · cases hx.symm.trans hm
    obtain ⟨hl', -⟩ | ⟨-, m', -, rfl⟩ | ⟨-, -, rfl⟩ := hcase
    · cases hl.symm.trans hl'
    · rfl
    · rfl

/-- The MEM step of an opcode that does not access memory passes its ALU result through (R198). -/
theorem memStep_pass (hm : s.exmem = some m) (hl : isLoad m.instr = false) (hs : isStore m.instr = false)
    (h : memStep s = .next p) : p = (s.mem, some ⟨m.pc, m.instr, m.alu⟩) := by
  simpa [memStep, hm, hl, hs] using h.symm

/-- A word that no STORE in EX/MEM addresses holds its value (R192). -/
theorem memStep_read_of_not_addressed (hwf : s.mem.wf = true) (h : memStep s = .next p) {k : Nat}
    (hk : ∀ m, s.exmem = some m → isStore m.instr = true → locate s.cfg.memWords m.alu ≠ .word k) :
    p.1.read k = s.mem.read k := by
  obtain ⟨-, rfl⟩ | ⟨m, hm, ⟨-, v, -, rfl⟩ | ⟨hs, m', hw, rfl⟩ | ⟨-, -, rfl⟩⟩ := memStep_next h
  · rfl
  · rfl
  · obtain ⟨-, rfl⟩ | ⟨j, hj, rfl⟩ := memWrite_next hw
    · rfl
    · have hkj : k ≠ j := fun hkj => hk m hm hs (hkj ▸ hj)
      rw [memory_read_write hwf, if_neg hkj]
  · rfl

end Mem

/-! ### exec and the step around the EX step -/

section Exec

variable {s t : State} {e : IdEx}

/-- A performed step is exec of the occupant of ID/EX (R215). -/
theorem step_eq_exec (hr : s.running = true) (he : s.idex = some e) : step s = exec e.instr s := by
  rw [step_of_running hr, exec_of_idex he]

theorem step_eq_bubbleCycle (hr : s.running = true) (he : s.idex = none) : step s = bubbleCycle s := by
  rw [step_of_running hr, takenTarget_of_idex_none he, nextExMem, he, bubbleCycle]

/-- What the EX step hands over is in EX/MEM after the cycle (R191). -/
theorem finishCycle_exmem_eq {ex : Option ExMem} {r : Option InstrIndex} (h : finishCycle s ex r = .next t) :
    t.exmem = ex := by
  obtain ⟨u, p, f, -, -, -, rfl⟩ := finishCycle_next.mp h
  rfl

/-- Where no other stage stops the cycle, exec completes with the result of the EX step in EX/MEM (R201). -/
theorem exec_completes (he : s.idex = some e) (hok : s.cycleOk = true) :
    ∃ t, exec e.instr s = .next t ∧ t.exmem = nextExMem s := by
  rw [exec_of_idex he]
  obtain ⟨t, h⟩ := finishCycle_completes hok (nextExMem s) (takenTarget s)
  exact ⟨t, h, finishCycle_exmem_eq h⟩

end Exec

/-! ### The statements about one cycle -/

/-- Settles O6: the EX step of the cycle is that of the occupant of ID/EX. -/
theorem stepExecutesTheInstructionInIdEx : Obligations.StepExecutesTheInstructionInIdEx :=
  fun _ hr => ⟨fun _ he => step_eq_exec hr he, fun he => step_eq_bubbleCycle hr he⟩

/-- Settles O10: each of the nine opcodes writes back, is an OUT, or commits nothing. -/
theorem writeBackStep : Obligations.WriteBackStep := by
  intro s t hr h
  have hretired := cycle_retired hr h
  obtain ⟨u, hu, hregs, hports, hlog⟩ := cycle_commits hr h
  simp only [hregs, hports, hlog]
  have hquiet : (∀ w, s.memwb = some w → writesBack w.instr = false ∧ isOut w.instr = false) →
      (∀ r, u.reg r = if r = 0 then 0 else s.reg r) ∧ u.ports = s.ports ∧ u.outLog = s.outLog := fun hq =>
    ⟨wbStep_read_of_no_writesBack hu fun w hw => (hq w hw).1, wbStep_outputs_of_no_out hu fun w hw => (hq w hw).2⟩
  refine ⟨fun hw => ?_, fun w hw => ⟨by simpa [hw] using hretired, fun f hf => ?_, fun f hf => ?_, fun f hf => ?_⟩⟩
  · obtain ⟨hregs', hports', hlog'⟩ := hquiet (by simp [hw])
    exact ⟨hregs', hports', hlog', by simpa [hw] using hretired⟩
  · have hb : writesBack w.instr = true := by obtain hf | hf | hf | hf := hf <;> rw [hf] <;> rfl
    have hrd : w.instr.fields.rd = f.rd := by obtain hf | hf | hf | hf := hf <;> rw [hf] <;> rfl
    refine ⟨hrd ▸ wbStep_read_of_writesBack hu hw hb, wbStep_outputs_of_no_out hu fun x hx => ?_⟩
    cases hw.symm.trans hx
    exact writesBack_not_isOut hb
  · obtain ⟨k, hk, hports', hlog'⟩ := wbStep_outputs_of_out hu hw (by rw [hf]; rfl)
    rw [hf] at hk
    obtain ⟨himm, hkn⟩ := portIndex_eq_some.mp hk
    refine ⟨wbStep_read_of_no_writesBack hu fun x hx => ?_, k, himm, hkn, hports', hlog'⟩
    cases hw.symm.trans hx
    rw [hf]
    rfl
  · refine hquiet fun x hx => ?_
    cases hw.symm.trans hx
    obtain hf | hf | hf | hf := hf <;> rw [hf] <;> exact ⟨rfl, rfl⟩

/-- Settles O11: the MEM step by the three classes of opcode. -/
theorem memoryStep : Obligations.MemoryStep := by
  intro s t hr h
  have hmem := cycle_memStep hr h
  refine ⟨fun hm => Prod.mk.inj (memStep_of_none hm hmem), fun m hm => ⟨fun f hf => ?_, fun f hf => ?_, fun hl hs => ?_⟩⟩
  · obtain ⟨v, hv, hp⟩ := memStep_load hm (isLoad_iff.mpr ⟨f, hf⟩) hmem
    obtain ⟨hmem', hmemwb⟩ := Prod.mk.inj hp
    exact ⟨hmem', v, hv, hmemwb⟩
  · have hs : isStore m.instr = true := isStore_iff.mpr ⟨f, hf⟩
    exact ⟨memStep_store hm hs hmem, memStep_result_of_not_isLoad hm (isStore_not_isLoad hs) hmem⟩
  · exact Prod.mk.inj (memStep_pass hm hl hs hmem)

/-- Settles O13: the stall signal is the hazard, and the three things a cycle can do before the EX step fix ID/EX. -/
theorem decodeStep : Obligations.DecodeStep := by
  intro s t hr h
  have hidex := cycle_idex hr h
  rw [stallSignal_eq_hazard]
  refine ⟨fun ht => ?_, fun hd => ?_, fun d hd ht hh => ?_, fun d hd ht hh => ⟨hh, ?_⟩⟩
  · exact hidex.trans (idStep_eq_none (.inl ht))
  · exact ⟨by rw [hidex, idStep, hd], by simp [hazard, hd]⟩
  · obtain ⟨hbubble, hheld, -⟩ := cycle_of_hazard hr h hh
    exact ⟨hbubble, hheld, hh⟩
  · rw [hidex, ht]
    have hdecode := idStep_of_no_hazard (x := t.regs) hh
    rw [hd] at hdecode
    exact hdecode

/-- Below `PROG_LEN` the next index does not wrap (R25). -/
theorem succ_toNat_of_inBounds {c : Config} (hl : loadProblem c = none) {k : InstrIndex}
    (hk : k.toNat < c.prog.length) : (k + 1).toNat = k.toNat + 1 := by
  obtain ⟨-, -, -, hlen, -⟩ := loadProblem_none hl
  rw [BitVec.toNat_add]
  exact Nat.mod_eq_of_lt (by simpa using (by omega : k.toNat + 1 < 2 ^ 32))

/-- Settles O14: a fetch below `PROG_LEN` takes the instruction there, and one past it takes nothing. -/
theorem fetchStep : Obligations.FetchStep := by
  intro s t hr h
  rw [stallSignal_eq_hazard]
  refine ⟨fun a ht => ?_, fun _ hh => ?_, fun ht hh => ?_⟩
  · obtain ⟨hpc, hifid, -⟩ := cycle_of_taken hr h ht
    exact ⟨hpc, hifid⟩
  · obtain ⟨-, hifid, hpc⟩ := cycle_of_hazard hr h hh
    exact ⟨hpc, hifid⟩
  · obtain ⟨a, ht', -⟩ | ⟨-, hh', -⟩ | ⟨-, -, hf, -⟩ := cycle_front hr h
    · cases ht.symm.trans ht'
    · cases hh.symm.trans hh'
    · refine ⟨fun hlt => ?_, fun hle => ?_⟩
      · have hin := fetch_isNone hf
        rw [inBounds, decide_eq_true hlt] at hin
        obtain ⟨-, hf⟩ | ⟨i, hi, hf⟩ := fetch_next hf
        · rw [(Prod.mk.inj hf).1] at hin
          cases hin
        · obtain ⟨hifid, hpc⟩ := Prod.mk.inj hf
          exact ⟨by rw [hpc, succ_toNat_of_inBounds (running_iff.mp hr).1 hlt], i, hi, hifid⟩
      · have hend : inBounds s.cfg s.pc = false := decide_eq_false (Nat.not_lt.mpr hle)
        obtain ⟨hifid, hpc⟩ := Prod.mk.inj (Host.Outcome.next.inj (hf.symm.trans (fetch_past_end hend)))
        exact ⟨hpc, hifid⟩

/-- Settles O7: a fetch, a decode against the register file of the cycle's end, and the step of the occupant of ID/EX. -/
theorem fetchedInstructionExecutesTwoCyclesLater : Obligations.FetchedInstructionExecutesTwoCyclesLater := by
  intro s t u i hi hr ht hh h hr' ht' hh' h' hr''
  have hifStep := cycle_ifStep hr h
  have hfetch : fetch s.cfg s.pc = .next (t.ifid, t.pc) := by simpa [ifStep, stall, ht, hh] using hifStep
  obtain ⟨hifid, hpc⟩ := Prod.mk.inj (Host.Outcome.next.inj (hfetch.symm.trans (fetch_of_progInstr hi)))
  have hidex : u.idex = some (capture u.regs s.pc i) := by
    rw [cycle_idex hr' h', ht']
    simpa [hifid] using idStep_of_no_hazard (x := u.regs) hh'
  exact ⟨hifid, hpc, hidex, step_eq_exec hr'' hidex⟩

/-- Settles O15: exec completes with the opcode's own EX result. -/
theorem executeStepOfEveryOpcode : Obligations.ExecuteStepOfEveryOpcode := by
  intro s e f he hok
  have hexec : ∀ i, e.instr = i → ∃ t, exec i s = .next t ∧ t.exmem =
      some ⟨e.pc, i, (exResult s.cfg i (forward s e)).alu, (exResult s.cfg i (forward s e)).sv⟩ := by
    rintro _ rfl
    simpa [nextExMem, he] using exec_completes he hok
  exact ⟨hexec _, hexec _, hexec _, hexec _, hexec _, hexec _, hexec _, hexec _, hexec _⟩

/-- The WB and MEM steps of the cycle of exec, in the fields of its next state that no other step writes (R192). -/
theorem exec_commits {i : Instr} {s t : State} (h : exec i s = .next t) :
    ∃ u, wbStep (s.issue i) = .next u ∧ memStep (s.issue i) = .next (t.mem, t.memwb) ∧ t.cfg = u.cfg ∧
      t.regs = u.regs ∧ t.ports = u.ports ∧ t.outLog = u.outLog ∧ t.retired = u.retired ∧ t.cycles = s.cycles + 1 := by
  rw [exec_eq] at h
  obtain ⟨u, p, f, hu, hp, -, rfl⟩ := finishCycle_next.mp h
  exact ⟨u, hu, hp, rfl, rfl, rfl, rfl, rfl, rfl⟩

/-- Settles O16: WB alone touches registers, ports, history and `retired`, and MEM alone touches the memory. -/
theorem execFrame : Obligations.ExecFrame := by
  intro i s t hwf h
  obtain ⟨u, hu, hp, hcfg, hregs, hports, hlog, hretired, hcycles⟩ := exec_commits h
  simp only [State.reg, State.port, hcfg, hregs, hports, hlog, hretired, hcycles]
  exact ⟨(wbStep_frame hu).1, wbStep_zero hu, fun r h0 hr => wbStep_read_of_not_written hu h0 hr,
    fun k hk => wbStep_port_of_not_named hu hk, fun ho => (wbStep_outputs_of_no_out hu ho).2,
    fun k hk => memStep_read_of_not_addressed hwf hp hk, trivial, wbStep_retired (s := s.issue i) hu⟩

/-! ### An instruction from EX to its destination register -/

section Result

variable {s t u : State} {e : IdEx} {x : Word}

/-- What an instruction in EX has in MEM/WB after its MEM step: a LOAD the word it reads, every other opcode its EX result
(R198, R201). -/
theorem cycles_memwb (he : s.idex = some e) (hr : s.running = true) (h : step s = .next t) (hr' : t.running = true)
    (h' : step t = .next u) {r : ExOut} (hres : exResult s.cfg e.instr (forward s e) = r)
    (hx : (isLoad e.instr = false ∧ x = r.alu) ∨
      (isLoad e.instr = true ∧ memRead s.cfg.memWords t.mem r.alu = .next x)) :
    u.memwb = some ⟨e.pc, e.instr, x⟩ := by
  have hm : t.exmem = some ⟨e.pc, e.instr, r.alu, r.sv⟩ := by simp [cycle_exmem hr h, nextExMem, he, hres]
  have hmem := cycle_memStep hr' h'
  obtain ⟨hl, rfl⟩ | ⟨hl, hx⟩ := hx
  · exact memStep_result_of_not_isLoad hm hl hmem
  · obtain ⟨y, hy, hp⟩ := memStep_load hm hl hmem
    rw [cycle_cfg hr h, hx] at hy
    cases hy
    exact (Prod.mk.inj hp).2

end Result

/-- Settles O26: the result passes from EX/MEM to MEM/WB, and the third cycle's WB step writes it. -/
theorem resultReachesDestination : Obligations.ResultReachesDestination := by
  intro s t u v e he hr h hr' h' hr'' h'' f x hx r
  have hmemwb : u.memwb = some ⟨e.pc, e.instr, x⟩ := by
    refine cycles_memwb he hr h hr' h' rfl ?_
    obtain ⟨hi, rfl⟩ | ⟨hi, rfl⟩ | ⟨hi, rfl⟩ | ⟨hi, hread⟩ := hx <;> rw [hi]
    · exact .inl ⟨rfl, rfl⟩
    · exact .inl ⟨rfl, rfl⟩
    · exact .inl ⟨rfl, rfl⟩
    · exact .inr ⟨rfl, hread⟩
  have hb : writesBack e.instr = true ∧ e.instr.fields.rd = f.rd := by
    obtain ⟨hi, -⟩ | ⟨hi, -⟩ | ⟨hi, -⟩ | ⟨hi, -⟩ := hx <;> rw [hi] <;> exact ⟨rfl, rfl⟩
  obtain ⟨hb, hrd⟩ := hb
  obtain ⟨y, hy, hregs, -⟩ := cycle_commits hr'' h''
  rw [hregs, wbStep_read_of_writesBack hy hmemwb hb, hrd]

/-! ### The driver -/

/-- A run has ended where it is done or capped (R218). -/
theorem termination_isSome (s : State) : s.termination.isSome = (s.done || s.capped) := by
  unfold State.termination
  cases s.done <;> cases s.capped <;> rfl

/-- Where the loop has as many turns as the cap leaves, it ends with the run, and reports the final state's own termination
(R217, R218). -/
theorem driveFor_ends {n : Nat} {s t : State} {r : Option Termination} (hl : loadProblem s.cfg = none)
    (hn : s.cycles + n = s.cfg.maxCycles) (h : driveFor n s = .next (t, r)) :
    loadProblem t.cfg = none ∧ r = t.termination ∧ t.termination.isSome = true ∧ t.cycles ≤ t.cfg.maxCycles := by
  induction n generalizing s with
  | zero =>
    cases h
    have hcapped : t.capped = true := decide_eq_true (by omega)
    exact ⟨hl, rfl, by rw [termination_isSome, hcapped, Bool.or_true], by omega⟩
  | succ n ih =>
    unfold driveFor at h
    split at h
    next r' hr =>
      cases h
      exact ⟨hl, hr.symm, by rw [hr]; rfl, by omega⟩
    next hr =>
      have hrun : s.running = true := by simp [State.running, hl, hr]
      obtain ⟨u, hu, hrest⟩ := andThen_eq_next.mp h
      have hcfg := cycle_cfg hrun hu
      exact ih (hcfg ▸ hl) (by rw [hcfg, cycle_cycles hrun hu]; omega) hrest

/-- Settles O49: the report is the final state's termination, `done` first, and a state whose run has ended holds. -/
theorem driverReportsHowTheRunEnded : Obligations.DriverReportsHowTheRunEnded := by
  intro s t r hcap h
  unfold drive at h
  split at h
  · cases h
  next hl =>
    obtain ⟨hl', hr, hended, hle⟩ := driveFor_ends hl (by omega) h
    refine ⟨?_, hle, step_of_ended hl' (termination_isSome t ▸ hended)⟩
    subst hr
    unfold State.termination at hended ⊢
    cases hd : t.done with
    | true => simp
    | false =>
      cases hc : t.capped with
      | true => simpa using Nat.le_antisymm hle (of_decide_eq_true hc)
      | false => simp [hd, hc] at hended

/-- The driver performs no cycle from a done state (R216, R218). -/
theorem driveFor_of_done {s : State} (hd : s.done = true) (n : Nat) :
    driveFor n s = .next (s, some .naturalCompletion) := by
  cases n <;> simp [driveFor, State.termination, hd]

/-- Settles O48: without a program the reset state is done. -/
theorem emptyProgramRunsZeroCycles : Obligations.EmptyProgramRunsZeroCycles := by
  intro c hprog hl
  have hd : (State.resetWith c).done = true := by simp [State.done, inBounds, hprog]
  refine ⟨?_, rfl, rfl, rfl⟩
  rw [drive, resetWith_cfg, hl]
  exact driveFor_of_done hd _

end Sys2Proof.Machine

/-! PROOF. The agreement of a completed run with the sequential reading (43_stage_advance.md R222, R224). The sequential
reading stands between the WB step and the MEM step of each cycle: its registers, ports and outputs are those after the WB step,
its memory that before the MEM step, so that its next instruction is the one in EX/MEM. -/

namespace Sys2Proof.Machine

/-! ### The sequential reading through the results of EX, MEM and WB -/

section Sequential

variable {c : Config} {i : Instr} {q : SeqState}

/-- The three operands of an instruction, all read from one register file. -/
def readOperands (x : RegFile) (i : Instr) : Operands := ⟨x.read i.fields.rd, x.read i.fields.ra, x.read i.fields.rb⟩

/-- The EX result of an instruction that reads its operands from the sequential state. -/
def seqResult (c : Config) (i : Instr) (q : SeqState) : ExOut := exResult c i (readOperands q.regs i)

/-- `q` at the instruction that follows `i`: at the target of a taken transfer, else one on. -/
def seqMove (c : Config) (i : Instr) (q : SeqState) : SeqState :=
  { q with next := (seqResult c i q).redirect.getD (q.next + 1) }

theorem seqEffect_of_load {v : Word} (hl : isLoad i = true)
    (hv : memRead c.memWords q.mem (seqResult c i q).alu = .next v) :
    seqEffect c i q = .next { seqMove c i q with regs := q.regs.write i.fields.rd v } := by
  obtain ⟨f, rfl⟩ := isLoad_iff.mp hl
  simp only [seqResult, exResult, exLoad, readOperands, Instr.fields] at hv
  simp [seqEffect, hv, seqMove, seqResult, exResult, exLoad, Instr.fields]

theorem seqEffect_of_store {m : Memory} (hs : isStore i = true)
    (hw : memWrite c.memWords q.mem (seqResult c i q).alu (seqResult c i q).sv = .next m) :
    seqEffect c i q = .next { seqMove c i q with mem := m } := by
  obtain ⟨f, rfl⟩ := isStore_iff.mp hs
  simp only [seqResult, exResult, exStore, readOperands, Instr.fields] at hw
  simp [seqEffect, hw, seqMove, seqResult, exResult, exStore]

theorem seqEffect_of_writesBack (hb : writesBack i = true) (hl : isLoad i = false) :
    seqEffect c i q = .next { seqMove c i q with regs := q.regs.write i.fields.rd (seqResult c i q).alu } := by
  cases i with
  | add f | sub f | set f => rfl
  | load f => cases hl
  | store f | beq f | jump f | out f | nop f => cases hb

theorem seqEffect_of_out {k : Nat} (ho : isOut i = true) (hk : portIndex c.nPorts i.fields.imm = some k) :
    seqEffect c i q = .next { seqMove c i q with
      ports := q.ports.set k (seqResult c i q).alu
      out := q.out ++ [(k, (seqResult c i q).alu)] } := by
  cases i <;> cases ho
  next f =>
    simp only [Instr.fields] at hk
    simp [seqEffect, hk, seqMove, seqResult, exResult, exOutput, readOperands, Instr.fields]

/-- BEQ, JUMP and NOP move on and do nothing else. -/
theorem seqEffect_of_no_effect (hb : writesBack i = false) (hs : isStore i = false) (ho : isOut i = false) :
    seqEffect c i q = .next (seqMove c i q) := by
  cases i with
  | beq f =>
    simp only [seqEffect, seqMove, seqResult, exResult, exBeq, equalValues, readOperands, Instr.fields, beq_iff_eq]
    split <;> rfl
  | jump f | nop f => rfl
  | add f | sub f | set f | load f => cases hb
  | store f => cases hs
  | out f => cases ho

theorem seqStep_of_effect {p : SeqState} (hi : progInstr c q.next = some i) (he : seqEffect c i q = .next p) :
    seqStep c q = .next { p with regs := p.regs.assertZero, executed := q.executed + 1 } := by
  simp [seqStep, hi, he]

/-- A run can be extended at its end. -/
theorem seqRun_succ (c : Config) (n : Nat) (q : SeqState) :
    seqRun c (n + 1) q = andThen (seqRun c n q) (seqStep c) := by
  induction n generalizing q with
  | zero => cases h : seqStep c q <;> simp [seqRun, h]
  | succ n ih =>
    rw [seqRun]
    cases h : seqStep c q with
    | next p => simpa [seqRun, h] using ih p
    | fault r => simp [seqRun, h]
    | refused r => simp [seqRun, h]

end Sequential

/-! ### The order of the instructions in the pipeline -/

section Order

variable {s t : State}

/-- The index of the next instruction that enters the ID step, the EX step and the MEM step: that of the oldest occupant before
it, else of the next fetch. -/
def nextDecode (s : State) : InstrIndex := (s.ifid.map IfId.pc).getD s.pc
def nextExecute (s : State) : InstrIndex := (s.idex.map IdEx.pc).getD (nextDecode s)
def nextMemory (s : State) : InstrIndex := (s.exmem.map ExMem.pc).getD (nextExecute s)

/-- The front of the pipeline is in program order, and ID/EX holds operands as the register file has them. -/
structure FrontInOrder (s : State) : Prop where
  fetched : ∀ d, s.ifid = some d → s.pc = d.pc + 1
  decoded : ∀ e, s.idex = some e → nextDecode s = e.pc + 1
  operands : ∀ e, s.idex = some e → captured e = readOperands s.regs e.instr

theorem resetWith_frontInOrder (c : Config) : FrontInOrder (State.resetWith c) where
  fetched _ h := nomatch h
  decoded _ h := nomatch h
  operands _ h := nomatch h

/-- After a fetch the index it had is the next to be decoded (R213). -/
theorem nextDecode_of_fetch (h : fetch s.cfg s.pc = .next (t.ifid, t.pc)) : nextDecode t = s.pc := by
  unfold nextDecode
  obtain ⟨-, hf⟩ | ⟨i, -, hf⟩ := fetch_next h <;> obtain ⟨hifid, hpc⟩ := Prod.mk.inj hf <;> simp [hifid, hpc]

/-- What enters the EX step after a cycle: the target of a taken transfer, else what was to be decoded. -/
theorem cycle_nextExecute (hr : s.running = true) (h : step s = .next t) :
    nextExecute t = (takenTarget s).getD (nextDecode s) := by
  obtain ⟨a, ht, hifid, hidex, hpc⟩ | ⟨ht, -, hifid, hidex, hpc⟩ | ⟨ht, -, hf, hidex⟩ := cycle_front hr h
  · simp [nextExecute, nextDecode, ht, hifid, hidex, hpc]
  · simp [nextExecute, nextDecode, ht, hifid, hidex, hpc]
  · cases hd : s.ifid with
    | none => simpa [nextExecute, ht, hidex, hd, nextDecode] using nextDecode_of_fetch hf
    | some d => simp [nextExecute, nextDecode, ht, hidex, hd, capture]

/-- What enters the MEM step after a cycle is what was to enter the EX step. -/
theorem cycle_nextMemory (hr : s.running = true) (h : step s = .next t) : nextMemory t = nextExecute s := by
  unfold nextMemory
  rw [cycle_exmem hr h, cycle_nextExecute hr h]
  cases he : s.idex with
  | none => simp [nextExMem, takenTarget, nextExecute, he]
  | some e => simp [nextExMem, nextExecute, he]

theorem cycle_keeps_frontInOrder (hs : FrontInOrder s) (hr : s.running = true) (h : step s = .next t) :
    FrontInOrder t := by
  obtain ⟨a, -, hifid, hidex, -⟩ | ⟨-, -, hifid, hidex, hpc⟩ | ⟨-, -, hf, hidex⟩ := cycle_front hr h
  · exact ⟨by simp [hifid], by simp [hidex], by simp [hidex]⟩
  · exact ⟨by rw [hifid, hpc]; exact hs.fetched, by simp [hidex], by simp [hidex]⟩
  · refine ⟨fun d hd => ?_, fun e he => ?_, fun e he => ?_⟩
    · obtain ⟨-, hf⟩ | ⟨i, -, hf⟩ := fetch_next hf <;> obtain ⟨hifid, hpc⟩ := Prod.mk.inj hf <;>
        cases hifid.symm.trans hd
      exact hpc
    · rw [hidex] at he
      obtain ⟨d, hd, rfl⟩ := Option.map_eq_some_iff.mp he
      rw [nextDecode_of_fetch hf, hs.fetched d hd, capture]
    · rw [hidex] at he
      obtain ⟨d, -, rfl⟩ := Option.map_eq_some_iff.mp he
      rfl

end Order

/-! ### The operands of the EX step are those of the sequential reading -/

section Operands

variable {s t u : State} {e : IdEx} {r : RegIndex} {v x : Word}

/-- Neither pattern of R224 has its last instruction in ID/EX: the producers before it are in EX/MEM and MEM/WB. -/
structure ClearOfPatterns (s : State) : Prop where
  double : ∀ w m e, s.memwb = some w → s.exmem = some m → s.idex = some e →
    doubleProducer w.instr m.instr e.instr = false
  zeroFar : s.cfg.fwdZeroReg = .forward → ∀ w e, s.memwb = some w → s.idex = some e → zeroProducer w e.instr = false
  zeroNear : s.cfg.fwdZeroReg = .forward → ∀ m e, s.exmem = some m → s.idex = some e → isLoad m.instr = false →
    zeroProducer ⟨m.pc, m.instr, m.alu⟩ e.instr = false

theorem of_producedFor_eq_some {c : Config} {i : Instr} (h : producedFor c r i v = some x) :
    writesBack i = true ∧ i.fields.rd = r ∧ (c.fwdZeroReg = .forward ∨ r ≠ 0) ∧ v = x := by
  unfold producedFor at h
  split at h
  next hp =>
    simp only [Bool.and_eq_true, beq_iff_eq, mayForward_iff] at hp
    obtain ⟨⟨hb, hz⟩, hrd⟩ := hp
    exact ⟨hb, hrd, hrd ▸ hz, Option.some.inj h⟩
  · cases h

theorem of_memWbAnswer_eq_some (h : memWbAnswer s r = some x) :
    ∃ w, s.memwb = some w ∧ writesBack w.instr = true ∧ w.instr.fields.rd = r ∧
      (s.cfg.fwdZeroReg = .forward ∨ r ≠ 0) ∧ w.res = x := by
  obtain ⟨w, hw, h⟩ := Option.bind_eq_some_iff.mp h
  exact ⟨w, hw, of_producedFor_eq_some h⟩

theorem of_exMemAnswer_eq_some (h : exMemAnswer s r = some x) :
    ∃ m, s.exmem = some m ∧ isLoad m.instr = false ∧ writesBack m.instr = true ∧ m.instr.fields.rd = r ∧
      (s.cfg.fwdZeroReg = .forward ∨ r ≠ 0) ∧ m.alu = x := by
  obtain ⟨m, hm, h⟩ := Option.bind_eq_some_iff.mp h
  cases hl : isLoad m.instr with
  | true => simp [hl] at h
  | false => exact ⟨m, hm, hl, of_producedFor_eq_some (by simpa [hl] using h)⟩

/-- For a register other than 0 the WB step writes what step (b) of forwarding answers (R154, R195). -/
theorem wbStep_read_of_ne_zero (h : wbStep s = .next u) (h0 : r ≠ 0) :
    u.reg r = (memWbAnswer s r).getD (s.reg r) := by
  cases ha : memWbAnswer s r with
  | some x =>
    obtain ⟨w, hw, hb, hrd, -, rfl⟩ := of_memWbAnswer_eq_some ha
    rw [wbStep_read_of_writesBack h hw hb, if_neg h0, if_pos hrd.symm, Option.getD_some]
  | none =>
    refine wbStep_read_of_not_written h h0 fun w hw hb hrd => ?_
    cases ha.symm.trans (memWbAnswer_eq_some hw hb hrd (.inr h0))

/-- A cycle moves the answer of EX/MEM to MEM/WB, unless it is for a LOAD to answer (R153, R154, R198). -/
theorem cycle_memWbAnswer (hr : s.running = true) (h : step s = .next t)
    (hl : ∀ m, s.exmem = some m → isLoad m.instr = true → m.instr.fields.rd ≠ r) :
    memWbAnswer t r = exMemAnswer s r := by
  have hmem := cycle_memStep hr h
  unfold memWbAnswer exMemAnswer
  rw [cycle_cfg hr h]
  cases hm : s.exmem with
  | none => rw [(Prod.mk.inj (memStep_of_none hm hmem)).2]; rfl
  | some m =>
    cases hld : isLoad m.instr with
    | false =>
      have hwb : t.memwb = some ⟨m.pc, m.instr, m.alu⟩ := memStep_result_of_not_isLoad hm hld hmem
      simp [hwb, hld]
    | true =>
      obtain ⟨v, -, hp⟩ := memStep_load hm hld hmem
      rw [(Prod.mk.inj hp).2]
      simpa [hld] using producedFor_eq_none fun _ hrd => absurd hrd (hl m hm hld)

/-- A producer for register 0 that makes no pattern 2 with a reader of register 0 has the result 0. -/
theorem res_of_not_zeroProducer {w : MemWb} {i : Instr} (h : zeroProducer w i = false) (hb : writesBack w.instr = true)
    (hrd : w.instr.fields.rd = 0) (hsrc : 0 ∈ srcs i) : w.res = 0 := by
  by_contra hres
  have hp : zeroProducer w i = true := by simpa [zeroProducer, hb, hrd] using ⟨hres, hsrc⟩
  cases hp.symm.trans h

/-- Register 0 is forwarded as 0, where pattern 2 does not stand (R158, R224). -/
theorem operandValue_zero (hc : ClearOfPatterns s) (he : s.idex = some e) (hsrc : 0 ∈ srcs e.instr)
    (h0 : s.reg 0 = 0) : operandValue s 0 (s.reg 0) = 0 := by
  have hwb : ∀ x, memWbAnswer s 0 = some x → x = 0 := fun x hx => by
    obtain ⟨w, hw, hb, hrd, hz, rfl⟩ := of_memWbAnswer_eq_some hx
    exact res_of_not_zeroProducer (hc.zeroFar (by simpa using hz) w e hw he) hb hrd hsrc
  have hex : ∀ x, exMemAnswer s 0 = some x → x = 0 := fun x hx => by
    obtain ⟨m, hm, hl, hb, hrd, hz, rfl⟩ := of_exMemAnswer_eq_some hx
    exact res_of_not_zeroProducer (hc.zeroNear (by simpa using hz) m e hm he hl) hb hrd hsrc
  unfold operandValue
  rw [h0]
  cases ha : memWbAnswer s 0 with
  | some x => exact hwb x ha
  | none =>
    cases hb : exMemAnswer s 0 with
    | some x => exact hex x hb
    | none => rfl

/-- Where pattern 1 does not stand, at most one of the two producers answers for a source (R156, R224). -/
theorem one_answer (hc : ClearOfPatterns s) (he : s.idex = some e) (hsrc : r ∈ srcs e.instr) :
    memWbAnswer s r = none ∨ exMemAnswer s r = none := by
  by_contra! hboth
  obtain ⟨x, hx⟩ := Option.ne_none_iff_exists'.mp hboth.1
  obtain ⟨y, hy⟩ := Option.ne_none_iff_exists'.mp hboth.2
  obtain ⟨w, hw, hbw, hrdw, -⟩ := of_memWbAnswer_eq_some hx
  obtain ⟨m, hm, hl, hbm, hrdm, -⟩ := of_exMemAnswer_eq_some hy
  simpa [doubleProducer, hbw, hbm, hl, hrdw, hrdm, hsrc] using hc.double w m e hw hm he

/-- A source of the instruction in EX has, once forwarded, the value that the register file has two WB steps later: after those
of the two instructions ahead of it. -/
theorem operandValue_eq_reg (hi : Inv s) (hc : ClearOfPatterns s) (he : s.idex = some e) (hsrc : r ∈ srcs e.instr)
    (hr : s.running = true) (h : step s = .next t) (hu : wbStep t = .next u) :
    operandValue s r (s.reg r) = u.reg r := by
  by_cases h0 : r = 0
  · subst h0
    exact (operandValue_zero hc he hsrc hi.zeroRegister).trans (wbStep_zero hu).symm
  · obtain ⟨x, hx, hregs, -⟩ := cycle_commits hr h
    have hload : ∀ m, s.exmem = some m → isLoad m.instr = true → m.instr.fields.rd ≠ r := fun m hm hl hrd =>
      hi.interlock m e hm he hl (hrd ▸ hsrc)
    rw [wbStep_read_of_ne_zero hu h0, hregs, wbStep_read_of_ne_zero hx h0, cycle_memWbAnswer hr h hload, operandValue]
    obtain hn | hn := one_answer hc he hsrc <;> simp [hn]

/-- Operands that have the register file's value in every source agree with those read from it (R132). -/
theorem operandsAgree_of_srcs {i : Instr} {x : RegFile} {value : RegIndex → Word}
    (h : ∀ r ∈ srcs i, value r = x.read r) :
    operandsAgree i (readOperands x i) ⟨value i.fields.rd, value i.fields.ra, value i.fields.rb⟩ := by
  cases i with
  | add f | sub f | beq f => exact ⟨h f.ra (by simp [srcs]), h f.rb (by simp [srcs])⟩
  | load f | out f => exact h f.ra (by simp [srcs])
  | store f => exact ⟨h f.rd (by simp [srcs]), h f.ra (by simp [srcs])⟩
  | jump f | set f | nop f => trivial

/-- The EX step computes what it would from operands read after the WB steps of the two instructions ahead. -/
theorem exResult_forward (hi : Inv s) (hs : FrontInOrder s) (hc : ClearOfPatterns s) (he : s.idex = some e)
    (hr : s.running = true) (h : step s = .next t) (hu : wbStep t = .next u) :
    exResult s.cfg e.instr (forward s e) = exResult s.cfg e.instr (readOperands u.regs e.instr) := by
  obtain ⟨hd, ha, hb⟩ := Operands.mk.inj (hs.operands e he)
  have hfwd : forward s e = ⟨operandValue s e.instr.fields.rd (s.reg e.instr.fields.rd),
      operandValue s e.instr.fields.ra (s.reg e.instr.fields.ra),
      operandValue s e.instr.fields.rb (s.reg e.instr.fields.rb)⟩ := by
    simp only [State.reg, ← hd, ← ha, ← hb, ← forward_fd, ← forward_fa, ← forward_fb]
  rw [hfwd]
  exact exResult_of_operandsAgree _ (operandsAgree_of_srcs (value := fun r => operandValue s r (s.reg r))
    fun r hsrc => operandValue_eq_reg hi hc he hsrc hr h hu)

end Operands

/-! ### A cycle and a sequential step -/

section Simulation

variable {s t u u' : State} {m : ExMem}

/-- The sequential state between the WB step and the MEM step of the cycle from `s`, where `u` is what the WB step leaves. -/
def sequentialView (s u : State) : SeqState where
  next := nextMemory s
  regs := u.regs
  mem := s.mem
  ports := u.ports
  out := u.outLog.map fun o => (o.port, o.value)
  executed := u.retired

/-- EX/MEM holds what its instruction yields in the sequential state, and the pipeline goes on where that instruction does. -/
structure ExMemInStep (s u : State) : Prop where
  alu : ∀ m, s.exmem = some m → m.alu = (seqResult s.cfg m.instr (sequentialView s u)).alu
  sv : ∀ m, s.exmem = some m → m.sv = (seqResult s.cfg m.instr (sequentialView s u)).sv
  next : ∀ m, s.exmem = some m → nextExecute s = (seqMove s.cfg m.instr (sequentialView s u)).next

theorem cycle_exMemInStep (hi : Inv s) (hs : FrontInOrder s) (hc : ClearOfPatterns s) (hr : s.running = true)
    (h : step s = .next t) (hu : wbStep t = .next u) : ExMemInStep t u := by
  have hmove := cycle_nextExecute hr h
  have hmem := cycle_nextMemory hr h
  cases he : s.idex with
  | none =>
    have hm : t.exmem = none := by simp [cycle_exmem hr h, nextExMem, he]
    exact ⟨by simp [hm], by simp [hm], by simp [hm]⟩
  | some e =>
    have hres := exResult_forward hi hs hc he hr h hu
    have hm : t.exmem = some ⟨e.pc, e.instr, (exResult s.cfg e.instr (forward s e)).alu,
        (exResult s.cfg e.instr (forward s e)).sv⟩ := by simp [cycle_exmem hr h, nextExMem, he]
    rw [hres] at hm
    have htaken : takenTarget s = (exResult s.cfg e.instr (readOperands u.regs e.instr)).redirect := by
      simp [takenTarget, he, hres]
    have hfrom : nextExecute s = e.pc := by simp [nextExecute, he]
    rw [htaken, hs.decoded e he] at hmove
    rw [hfrom] at hmem
    simp only [← cycle_cfg hr h] at hm hmove
    constructor <;> intro m hm' <;> cases hm.symm.trans hm'
    · rfl
    · rfl
    · simp [seqMove, seqResult, sequentialView, hmem, hmove]

theorem wbStep_of_writesBack {w : MemWb} (hw : t.memwb = some w) (hb : writesBack w.instr = true)
    (h : wbStep t = .next u) : u = { t with
      regs := (t.regs.write w.instr.fields.rd w.res).assertZero
      retired := t.retired + 1 } := by
  simpa [wbStep, commit, hw, hb] using h.symm

theorem wbStep_of_out {w : MemWb} (hw : t.memwb = some w) (ho : isOut w.instr = true) (h : wbStep t = .next u) :
    ∃ k, portIndex t.cfg.nPorts w.instr.fields.imm = some k ∧ u = { t with
      regs := t.regs.assertZero
      ports := t.ports.set k w.res
      outLog := t.outLog ++ [⟨t.cycles + 1, k, w.res⟩]
      retired := t.retired + 1 } := by
  obtain ⟨k, hk, -⟩ := wbStep_outputs_of_out h hw ho
  exact ⟨k, hk, by simpa [wbStep, commit, hw, isOut_not_writesBack ho, ho, writePort, hk] using h.symm⟩

theorem wbStep_of_no_effect {w : MemWb} (hw : t.memwb = some w) (hb : writesBack w.instr = false)
    (ho : isOut w.instr = false) (h : wbStep t = .next u) :
    u = { t with regs := t.regs.assertZero, retired := t.retired + 1 } := by
  simpa [wbStep, commit, hw, hb, ho] using h.symm

theorem isStore_commits_nothing {i : Instr} (h : isStore i = true) : writesBack i = false ∧ isOut i = false := by
  obtain ⟨f, rfl⟩ := isStore_iff.mp h
  exact ⟨rfl, rfl⟩

/-- A register file whose register 0 reads 0 is as re-asserted (R22). -/
theorem assertZero_of_read_zero {x : RegFile} (h : x.read 0 = 0) : x.assertZero = x := by
  refine regFile_ext fun r => ?_
  by_cases h0 : r = 0
  · subst h0
    exact (read_assertZero x 0).trans h.symm
  · exact read_assertZero_of_ne h0

/-- A cycle without an instruction in the MEM step leaves the sequential state as it is. -/
theorem cycle_sequentialView_of_none (hr : s.running = true) (h : step s = .next t) (hu : wbStep s = .next u)
    (hu' : wbStep t = .next u') (hm : s.exmem = none) : sequentialView t u' = sequentialView s u := by
  obtain ⟨x, hx, -, -, -, -, -, -, hregs, hports, hlog, hretired⟩ := cycle_stages hr h
  cases hu.symm.trans hx
  obtain ⟨hmem, hmemwb⟩ := Prod.mk.inj (memStep_of_none hm (cycle_memStep hr h))
  have hzero : u.regs.assertZero = u.regs := assertZero_of_read_zero (wbStep_zero hu)
  have hnext : nextMemory t = nextMemory s := (cycle_nextMemory hr h).trans (by simp [nextMemory, hm])
  obtain ⟨-, rfl⟩ | ⟨w, hw, -⟩ := wbStep_next hu'
  · simp only [sequentialView, hregs, hports, hlog, hretired, hmem, hzero]
    congr 1
  · cases hmemwb.symm.trans hw

/-- The sequential state behind a cycle is put together from what the MEM step and the next WB step leave. -/
theorem sequentialView_eq {q : SeqState} (hnext : q.next = nextMemory t) (hregs : q.regs.assertZero = u'.regs)
    (hmem : q.mem = t.mem) (hports : q.ports = u'.ports) (hout : q.out = u'.outLog.map fun o => (o.port, o.value)) :
    { q with regs := q.regs.assertZero, executed := u'.retired } = sequentialView t u' := by
  rw [sequentialView, ← hnext, ← hregs, ← hmem, ← hports, ← hout]

/-- The sequential effect of the instruction in EX/MEM is what its MEM step and, one cycle on, its WB step do (R195, R198,
R222): a LOAD, another instruction that writes back, a STORE, an OUT, or one of the three that only move on. -/
theorem cycle_seqEffect (hx : ExMemInStep s u) (hr : s.running = true) (h : step s = .next t) (hu : wbStep s = .next u)
    (hu' : wbStep t = .next u') (hm : s.exmem = some m) :
    ∃ q, seqEffect s.cfg m.instr (sequentialView s u) = .next q ∧
      { q with regs := q.regs.assertZero, executed := u'.retired } = sequentialView t u' := by
  obtain ⟨x, hx', hmem, -, -, -, -, -, hregs, hports, hlog, -⟩ := cycle_stages hr h
  cases hu.symm.trans hx'
  have hnPorts : t.cfg.nPorts = s.cfg.nPorts := by rw [cycle_cfg hr h]
  have hnext : (seqMove s.cfg m.instr (sequentialView s u)).next = nextMemory t :=
    (hx.next m hm).symm.trans (cycle_nextMemory hr h).symm
  have halu := hx.alu m hm
  have hsv := hx.sv m hm
  cases hl : isLoad m.instr with
  | true =>
    obtain ⟨v, hv, hp⟩ := memStep_load hm hl hmem
    obtain ⟨hmem', hmemwb⟩ := Prod.mk.inj hp
    cases wbStep_of_writesBack hmemwb (isLoad_writesBack hl) hu'
    rw [halu] at hv
    exact ⟨_, seqEffect_of_load hl hv,
      sequentialView_eq hnext (by rw [hregs]; rfl) hmem'.symm hports.symm (by rw [hlog]; rfl)⟩
  | false =>
    have hmemwb := memStep_result_of_not_isLoad hm hl hmem
    cases hs : isStore m.instr with
    | true =>
      have hw := memStep_store hm hs hmem
      have hb := isStore_commits_nothing hs
      cases wbStep_of_no_effect hmemwb hb.1 hb.2 hu'
      rw [halu, hsv] at hw
      exact ⟨_, seqEffect_of_store hs hw,
        sequentialView_eq hnext (by rw [hregs]; rfl) rfl hports.symm (by rw [hlog]; rfl)⟩
    | false =>
      have hmem' : s.mem = t.mem := (Prod.mk.inj (memStep_pass hm hl hs hmem)).1.symm
      cases hb : writesBack m.instr with
      | true =>
        cases wbStep_of_writesBack hmemwb hb hu'
        exact ⟨_, seqEffect_of_writesBack hb hl,
          sequentialView_eq hnext (by rw [← halu, hregs]; rfl) hmem' hports.symm (by rw [hlog]; rfl)⟩
      | false =>
        cases ho : isOut m.instr with
        | true =>
          obtain ⟨k, hk, rfl⟩ := wbStep_of_out hmemwb ho hu'
          rw [hnPorts] at hk
          exact ⟨_, seqEffect_of_out ho hk,
            sequentialView_eq hnext (by rw [hregs]; rfl) hmem' (by rw [← halu, hports]; rfl)
              (by rw [← halu, hlog, List.map_append]; rfl)⟩
        | false =>
          cases wbStep_of_no_effect hmemwb hb ho hu'
          exact ⟨_, seqEffect_of_no_effect hb hs ho,
            sequentialView_eq hnext (by rw [hregs]; rfl) hmem' hports.symm (by rw [hlog]; rfl)⟩

/-- The MEM step hands its instruction on (R198). -/
theorem cycle_memwb_of_exmem (hr : s.running = true) (h : step s = .next t) (hm : s.exmem = some m) :
    ∃ w, t.memwb = some w ∧ w.instr = m.instr := by
  have hmem := cycle_memStep hr h
  cases hl : isLoad m.instr with
  | true =>
    obtain ⟨v, -, hp⟩ := memStep_load hm hl hmem
    exact ⟨_, (Prod.mk.inj hp).2, rfl⟩
  | false => exact ⟨_, memStep_result_of_not_isLoad hm hl hmem, rfl⟩

/-- A cycle with an instruction of the program in the MEM step is one step of the sequential reading. -/
theorem cycle_seqStep (hi : Inv s) (hx : ExMemInStep s u) (hr : s.running = true) (h : step s = .next t)
    (hu : wbStep s = .next u) (hu' : wbStep t = .next u') (hm : s.exmem = some m) :
    u'.retired = u.retired + 1 ∧ seqStep s.cfg (sequentialView s u) = .next (sequentialView t u') := by
  obtain ⟨q, heffect, hview⟩ := cycle_seqEffect hx hr h hu hu' hm
  have hretired : u'.retired = u.retired + 1 := by
    obtain ⟨x, hx', -, -, -, -, -, -, -, -, -, hretired⟩ := cycle_stages hr h
    cases hu.symm.trans hx'
    obtain ⟨w, hw, -⟩ := cycle_memwb_of_exmem hr h hm
    rw [wbStep_retired hu', hretired, hw]
    rfl
  have hnext : (sequentialView s u).next = m.pc := by simp [sequentialView, nextMemory, hm]
  refine ⟨hretired, ?_⟩
  rw [seqStep_of_effect (hnext ▸ hi.exmemFromProgram m hm) heffect, ← hview, hretired]
  rfl

/-- The sequential reading, after as many steps as instructions have passed the WB step of the cycle from `s`, is where the
pipeline is. -/
structure InStep (s u : State) : Prop extends ExMemInStep s u where
  wb : wbStep s = .next u
  run : seqRun s.cfg u.retired (SeqState.start s.cfg) = .next (sequentialView s u)

theorem resetWith_inStep (c : Config) : ∃ u, InStep (State.resetWith c) u := by
  refine ⟨{ State.resetWith c with regs := (State.resetWith c).regs.assertZero }, ⟨nofun, nofun, nofun⟩, rfl, ?_⟩
  rw [assertZero_of_read_zero (resetWith_reg c 0)]
  rfl

/-- A cycle keeps step, where neither pattern of R224 ends in its EX step. -/
theorem cycle_keeps_inStep (hi : Inv s) (hs : FrontInOrder s) (hc : ClearOfPatterns s) (hx : InStep s u)
    (hr : s.running = true) (h : step s = .next t) : ∃ u', InStep t u' := by
  have hcfg := cycle_cfg hr h
  have hl : loadProblem t.cfg = none := by rw [hcfg]; exact (running_iff.mp hr).1
  obtain ⟨u', hu'⟩ := wbStep_completes (commitOk_of_inv (cycle_keeps_inv hi hr h) hl)
  refine ⟨u', cycle_exMemInStep hi hs hc hr h hu', hu', ?_⟩
  rw [hcfg]
  cases hm : s.exmem with
  | none =>
    have hview := cycle_sequentialView_of_none hr h hx.wb hu' hm
    have hretired : u'.retired = u.retired := congrArg SeqState.executed hview
    rw [hview, hretired, hx.run]
  | some m =>
    obtain ⟨hretired, hstep⟩ := cycle_seqStep hi hx.toExMemInStep hr h hx.wb hu' hm
    rw [hretired, seqRun_succ, hx.run, andThen_next_eq, hstep]

end Simulation

/-! ### What a completed run shows of the patterns -/

section Trace

variable {s t f : State} {n : Nat} {m : ExMem} {e : IdEx}

/-- A state that performs no cycle is where its run stays (R49, R218). -/
theorem run_of_holding (hr : s.running = false) (h : Host.Core.run core n s = .next f) : f = s := by
  induction n with
  | zero =>
    cases h
    rfl
  | succ n ih =>
    rw [run_succ] at h
    obtain ⟨t, ht, hrest⟩ := andThen_eq_next.mp h
    cases step_holds hr ht
    exact ih hrest

theorem not_running_of_done (hd : s.done = true) : s.running = false := by
  simp [State.running, State.termination, hd]

/-- A completed run performs a cycle from a state that is not done, and records it. -/
theorem run_succ_of_not_done (h : Host.Core.run core (n + 1) s = .next f) (hf : f.done = true) (hd : s.done = false) :
    ∃ t, s.running = true ∧ step s = .next t ∧ Host.Core.run core n t = .next f ∧
      cycleTrace (n + 1) s = cycleRecord s :: cycleTrace n t := by
  have hr : s.running = true := by
    by_contra hr
    rw [run_of_holding (eq_false_of_ne_true hr) h, hd] at hf
    cases hf
  have hterm : s.termination = none := by simpa [State.running, (running_iff.mp hr).1] using hr
  rw [run_succ] at h
  obtain ⟨t, ht, hrest⟩ := andThen_eq_next.mp h
  exact ⟨t, hr, ht, hrest, by simp [cycleTrace, hterm, ht]⟩

/-- A completed run from a state that is not done has a cycle left. -/
theorem run_of_not_done (h : Host.Core.run core n s = .next f) (hf : f.done = true) (hd : s.done = false) :
    ∃ k t, s.running = true ∧ step s = .next t ∧ Host.Core.run core k t = .next f ∧
      cycleTrace n s = cycleRecord s :: cycleTrace k t := by
  cases n with
  | zero =>
    cases h
    cases hd.symm.trans hf
  | succ k => exact ⟨k, run_succ_of_not_done h hf hd⟩

theorem not_done_of_exmem (hm : s.exmem = some m) : s.done = false := by simp [State.done, hm]

theorem not_done_of_memwb {w : MemWb} (hw : s.memwb = some w) : s.done = false := by simp [State.done, hw]

/-- What a completed run shows in WB, from a state with an instruction in EX: MEM/WB, what the MEM step makes of EX/MEM, and then
that instruction. -/
theorem cycleTrace_writeBack (h : Host.Core.run core n s = .next f) (hf : f.done = true) (hr : s.running = true)
    (ht : step s = .next t) (he : s.idex = some e) :
    ∃ y l, y.instr = e.instr ∧
      (cycleTrace n s).map CycleRecord.writeBack = s.memwb :: t.memwb :: some y :: l := by
  have hd : s.done = false := (running_iff.mp hr).2.1
  have hm : t.exmem = some ⟨e.pc, e.instr, (exResult s.cfg e.instr (forward s e)).alu,
      (exResult s.cfg e.instr (forward s e)).sv⟩ := by simp [cycle_exmem hr ht, nextExMem, he]
  obtain ⟨k, _, -, ht', hrun, htrace⟩ := run_of_not_done h hf hd
  cases ht.symm.trans ht'
  obtain ⟨k', v, hr', hv, hrun', htrace'⟩ := run_of_not_done hrun hf (not_done_of_exmem hm)
  obtain ⟨y, hy, hyi⟩ := cycle_memwb_of_exmem hr' hv hm
  obtain ⟨k'', x, -, -, -, htrace''⟩ := run_of_not_done hrun' hf (not_done_of_memwb hy)
  refine ⟨y, (cycleTrace k'' x).map CycleRecord.writeBack, hyi, ?_⟩
  rw [htrace, htrace', htrace'']
  simp [cycleRecord, hy]

/-- Pattern 1 at the head of what passes WB, and behind it. -/
theorem hasDoubleProducer_cons {y x i : MemWb} {l : List (Option MemWb)}
    (h : hasDoubleProducer (some y :: some x :: some i :: l) = false) : doubleProducer y.instr x.instr i.instr = false := by
  rw [hasDoubleProducer, Bool.or_eq_false_iff] at h
  exact h.1

theorem hasDoubleProducer_tail {y : Option MemWb} {l : List (Option MemWb)} (h : hasDoubleProducer (y :: l) = false) :
    hasDoubleProducer l = false := by
  unfold hasDoubleProducer at h
  exact (Bool.or_eq_false_iff.mp h).2

/-- Pattern 2 at the head of the executed instructions, and behind it. -/
theorem hasZeroProducer_cons {p : MemWb} {l : List MemWb} : hasZeroProducer (p :: l) = false ↔
    (∀ i ∈ l.take 2, zeroProducer p i.instr = false) ∧ hasZeroProducer l = false := by
  rw [hasZeroProducer, Bool.or_eq_false_iff, List.any_eq_false]
  simp

theorem hasZeroProducer_tail {y : Option MemWb} {l : List (Option MemWb)}
    (h : hasZeroProducer ((y :: l).filterMap id) = false) : hasZeroProducer (l.filterMap id) = false := by
  cases y with
  | none => exact h
  | some p => exact (hasZeroProducer_cons.mp h).2

theorem hazardPatternFree_iff {c : Config} {l : List CycleRecord} : hazardPatternFree c l = true ↔
    hasDoubleProducer (l.map CycleRecord.writeBack) = false ∧
      (c.fwdZeroReg = .forward → hasZeroProducer ((l.map CycleRecord.writeBack).filterMap id) = false) := by
  simp [hazardPatternFree, imp_iff_not_or]

/-- Neither pattern stands in the rest of a trace that contains neither. -/
theorem hazardPatternFree_tail {c : Config} {r : CycleRecord} {l : List CycleRecord}
    (h : hazardPatternFree c (r :: l) = true) : hazardPatternFree c l = true := by
  obtain ⟨hdouble, hzero⟩ := hazardPatternFree_iff.mp h
  exact hazardPatternFree_iff.mpr ⟨hasDoubleProducer_tail hdouble, fun hz => hasZeroProducer_tail (hzero hz)⟩

/-- The instruction in EX and the two ahead of it are the next three in WB, so that they make no pattern (log 17). -/
theorem clear_of_trace (h : Host.Core.run core n s = .next f) (hf : f.done = true) (hr : s.running = true)
    (ht : step s = .next t) (hp : hazardPatternFree s.cfg (cycleTrace n s) = true) : ClearOfPatterns s := by
  obtain ⟨hdouble, hzero⟩ := hazardPatternFree_iff.mp hp
  refine ⟨fun w m e hw hm he => ?_, fun hz w e hw he => ?_, fun hz m e hm he hl => ?_⟩ <;>
    obtain ⟨y, l, hy, hpassed⟩ := cycleTrace_writeBack h hf hr ht he
  · obtain ⟨x, hx, hxi⟩ := cycle_memwb_of_exmem hr ht hm
    rw [hpassed, hw, hx] at hdouble
    rw [← hxi, ← hy]
    exact hasDoubleProducer_cons hdouble
  · have hfar := hzero hz
    rw [hpassed, hw] at hfar
    rw [← hy]
    refine (hasZeroProducer_cons.mp hfar).1 y ?_
    cases t.memwb <;> simp
  · have hnear := hasZeroProducer_tail (hpassed ▸ hzero hz)
    have hx : t.memwb = some ⟨m.pc, m.instr, m.alu⟩ := memStep_result_of_not_isLoad hm hl (cycle_memStep hr ht)
    rw [hx] at hnear
    rw [← hy]
    exact (hasZeroProducer_cons.mp hnear).1 y (by simp)

end Trace

/-! ### The statement -/

/-- What R224 says of the state `s` at the end of a run. -/
def MatchesSequential (s : State) : Prop :=
  ∃ q, seqRun s.cfg s.retired (SeqState.start s.cfg) = .next q ∧ q.executed = s.retired ∧
    inBounds s.cfg q.next = false ∧ q.regs = s.regs ∧ q.mem = s.mem ∧ q.ports = s.ports ∧
    q.out = s.outLog.map fun o => (o.port, o.value)

/-- With every latch empty, the sequential reading is past the end where the pipeline is. -/
theorem matches_of_done {s u : State} (hi : Inv s) (hx : InStep s u) (hd : s.done = true) : MatchesSequential s := by
  simp only [State.done, Bool.and_eq_true, Bool.not_eq_true', Option.isNone_iff_eq_none] at hd
  obtain ⟨⟨⟨⟨hpc, hifid⟩, hidex⟩, hexmem⟩, hmemwb⟩ := hd
  have hrun := hx.run
  obtain ⟨-, rfl⟩ | ⟨w, hw, -⟩ := wbStep_next hx.wb
  · rw [assertZero_of_read_zero hi.zeroRegister] at hrun
    refine ⟨_, hrun, rfl, ?_, rfl, rfl, rfl, rfl⟩
    simpa [sequentialView, nextMemory, nextExecute, nextDecode, hifid, hidex, hexmem] using hpc
  · cases hmemwb.symm.trans hw

/-- A completed run that is in step at its start ends in step, by induction on its length. -/
theorem run_matches {n : Nat} {s u f : State} (hi : Inv s) (hs : FrontInOrder s) (hx : InStep s u)
    (h : Host.Core.run core n s = .next f) (hf : f.done = true)
    (hp : hazardPatternFree s.cfg (cycleTrace n s) = true) : f.cfg = s.cfg ∧ MatchesSequential f := by
  induction n generalizing s u with
  | zero =>
    cases h
    exact ⟨rfl, matches_of_done hi hx hf⟩
  | succ n ih =>
    cases hd : s.done with
    | true =>
      cases run_of_holding (not_running_of_done hd) h
      exact ⟨rfl, matches_of_done hi hx hd⟩
    | false =>
      obtain ⟨t, hr, ht, hrest, htrace⟩ := run_succ_of_not_done h hf hd
      obtain ⟨u', hx'⟩ := cycle_keeps_inStep hi hs (clear_of_trace h hf hr ht hp) hx hr ht
      have hcfg := cycle_cfg hr ht
      rw [htrace, ← hcfg] at hp
      rw [← hcfg]
      exact ih (cycle_keeps_inv hi hr ht) (cycle_keeps_frontInOrder hs hr ht) hx' hrest (hazardPatternFree_tail hp)

/-- Settles O51: the reset state is in step with the sequential reading, and every cycle keeps step. -/
theorem pipelineMatchesTheSequentialReading : Obligations.PipelineMatchesTheSequentialReading := by
  intro c n s hrun hd hp
  obtain ⟨u, hx⟩ := resetWith_inStep c
  obtain ⟨hcfg, q, hmatch⟩ := run_matches (resetWith_inv c) (resetWith_frontInOrder c) hx hrun hd hp
  rw [hcfg] at hmatch
  exact ⟨q, hmatch⟩

end Sys2Proof.Machine

/-! PROOF. The statements about ADD, SUB and SET (44_arithmetic.md). An instruction alone in EX takes three cycles, its EX, MEM
and WB step; each is one equation of `finishCycle` in a pipeline with nothing before the EX step. -/

namespace Sys2Proof.Machine

/-! ### A cycle with nothing before the EX step -/

section Drained

variable {s u : State}

/-- With IF/ID empty and nothing left to fetch, IF/ID stays empty and only a taken transfer moves `pc` (R210, R213). -/
theorem ifStep_of_drained (hifid : s.ifid = none) (hend : inBounds s.cfg s.pc = false) (r : Option InstrIndex) :
    ifStep s r = .next (none, r.getD s.pc) := by
  cases r with
  | some a => rfl
  | none =>
    have hh : hazard s = false := by simp [hazard, hifid]
    simpa [ifStep, stall, hh] using fetch_past_end hend

/-- Such a cycle is what its WB and MEM steps do, with both latches before the EX step empty behind it (R215). -/
theorem finishCycle_of_drained (hifid : s.ifid = none) (hend : inBounds s.cfg s.pc = false) {p : Memory × Option MemWb}
    (hwb : wbStep s = .next u) (hmem : memStep s = .next p) (ex : Option ExMem) (r : Option InstrIndex) :
    finishCycle s ex r = .next { u with
      pc := r.getD s.pc, mem := p.1, ifid := none, idex := none, exmem := ex, memwb := p.2, cycles := s.cycles + 1 } :=
  finishCycle_next.mpr ⟨u, p, _, hwb, hmem, ifStep_of_drained hifid hend r, by simp [idStep, hifid]⟩

/-- The WB step of an empty MEM/WB re-asserts the zero register and does nothing else (R195). -/
theorem wbStep_of_empty (hw : s.memwb = none) : wbStep s = .next { s with regs := s.regs.assertZero } := by
  simp [wbStep, hw]

/-- The WB step of an instruction that writes back (R195). -/
theorem wbStep_of_writer {w : MemWb} (hw : s.memwb = some w) (hb : writesBack w.instr = true) :
    wbStep s = .next { s with
      regs := (s.regs.write w.instr.fields.rd w.res).assertZero, retired := s.retired + 1 } := by
  simp [wbStep, commit, hw, hb]

/-- The MEM step of an instruction that does not access memory (R198). -/
theorem memStep_of_no_access {m : ExMem} (hm : s.exmem = some m) (hl : isLoad m.instr = false)
    (hs : isStore m.instr = false) : memStep s = .next (s.mem, some ⟨m.pc, m.instr, m.alu⟩) := by
  simp [memStep, hm, hl, hs]

/-- With no older instruction in the pipeline the operands are those captured at decode time (R151). -/
theorem forward_of_no_producer (hm : s.exmem = none) (hw : s.memwb = none) (e : IdEx) : forward s e = captured e := by
  simp [forward, forwardExMem, forwardMemWb, hm, hw]

/-- Re-asserting the zero register before a write changes nothing where it is re-asserted after it (R22). -/
theorem assertZero_write_assertZero (x : RegFile) (r : RegIndex) (v : Word) :
    (x.assertZero.write r v).assertZero = (x.write r v).assertZero := by
  refine regFile_ext fun j => ?_
  by_cases h0 : j = 0#4 <;> simp [h0]

theorem assertZero_assertZero (x : RegFile) : x.assertZero.assertZero = x.assertZero :=
  assertZero_of_read_zero (by simp)

end Drained

/-! ### The three cycles of an instruction alone in EX -/

/-- `s` after the EX step of the instruction that was alone in its ID/EX: `m` in EX/MEM, and the index continued at. -/
def State.aloneInMem (s : State) (pc : InstrIndex) (m : ExMem) : State :=
  { s with pc := pc, regs := s.regs.assertZero, idex := none, exmem := some m, cycles := s.cycles + 1 }

/-- `s` one cycle later: the memory behind the MEM step, and `w` in MEM/WB. -/
def State.aloneInWb (s : State) (pc : InstrIndex) (mem : Memory) (w : MemWb) : State :=
  { s with pc := pc, regs := s.regs.assertZero, mem := mem, idex := none, memwb := some w, cycles := s.cycles + 2 }

section Alone

variable {s y : State} {e : IdEx} {pc : InstrIndex} {m : ExMem} {mem : Memory} {w : MemWb}

/-- EX: exec puts the result over the captured operands into EX/MEM, and a target into `pc` (R201). -/
theorem AloneInEx.exec_eq_aloneInMem (h : AloneInEx s e) {r : ExOut} (hr : exResult s.cfg e.instr (captured e) = r) :
    exec e.instr s = .next (s.aloneInMem (r.redirect.getD s.pc) ⟨e.pc, e.instr, r.alu, r.sv⟩) := by
  have hmem : memStep s = .next (s.mem, none) := by simp [memStep, h.exmem]
  have hex : nextExMem s = some ⟨e.pc, e.instr, r.alu, r.sv⟩ := by
    simp [nextExMem, h.idex, forward_of_no_producer h.exmem h.memwb, hr]
  have htarget : takenTarget s = r.redirect := by
    simp [takenTarget, h.idex, forward_of_no_producer h.exmem h.memwb, hr]
  rw [exec_of_idex h.idex, hex, htarget, finishCycle_of_drained h.ifid h.drained (wbStep_of_empty h.memwb) hmem]
  simp [State.aloneInMem, h.ifid, h.memwb]

/-- MEM: the second cycle does what its MEM step does (R198). -/
theorem AloneInEx.step_aloneInMem (h : AloneInEx s e) (hend : inBounds s.cfg pc = false)
    (hmem : memStep (s.aloneInMem pc m) = .next (mem, some w)) :
    step (s.aloneInMem pc m) = .next (s.aloneInWb pc mem w) := by
  have hroom := h.room
  have hrun : (s.aloneInMem pc m).running = true :=
    running_iff.mpr ⟨h.paramsOk, not_done_of_exmem rfl, by simp only [State.aloneInMem]; omega⟩
  rw [step_eq_bubbleCycle hrun rfl, bubbleCycle,
    finishCycle_of_drained (s := s.aloneInMem pc m) h.ifid hend (wbStep_of_empty h.memwb) hmem]
  simp [State.aloneInMem, State.aloneInWb, assertZero_assertZero, h.ifid, h.exmem]

/-- WB: the third cycle does what its WB step does and leaves the pipeline empty (R195). -/
theorem AloneInEx.step_aloneInWb (h : AloneInEx s e) (hend : inBounds s.cfg pc = false)
    (hwb : wbStep (s.aloneInWb pc mem w) = .next y) :
    step (s.aloneInWb pc mem w) = .next { y with memwb := none, cycles := s.cycles + 3 } := by
  have hroom := h.room
  have hrun : (s.aloneInWb pc mem w).running = true :=
    running_iff.mpr ⟨h.paramsOk, not_done_of_memwb rfl, by simp only [State.aloneInWb]; omega⟩
  have hmem : memStep (s.aloneInWb pc mem w) = .next (mem, none) := by simp [memStep, State.aloneInWb, h.exmem]
  obtain ⟨-, hpc, hmem', hifid, hidex, hexmem, -⟩ := wbStep_frame hwb
  rw [step_eq_bubbleCycle hrun rfl, bubbleCycle,
    finishCycle_of_drained (s := s.aloneInWb pc mem w) h.ifid hend hwb hmem]
  simp [State.aloneInWb, hpc, hmem', hifid, hidex, hexmem, h.ifid, h.exmem]

/-- An instruction alone in EX that writes back, takes no transfer and leaves the memory as it is puts the result of its MEM
step into its destination register, and nothing else changes but the counters. -/
theorem AloneInEx.writes_result (h : AloneInEx s e) (hb : writesBack e.instr = true) {r : ExOut} {v : Word}
    (hr : exResult s.cfg e.instr (captured e) = r) (hseq : r.redirect = none)
    (hmem : memStep (s.aloneInMem s.pc ⟨e.pc, e.instr, r.alu, r.sv⟩) = .next (s.mem, some ⟨e.pc, e.instr, v⟩)) :
    ∃ t u, exec e.instr s = .next t ∧ step t = .next u ∧
      step u = .next { s with
        idex := none
        regs := (s.regs.write e.instr.fields.rd v).assertZero
        cycles := s.cycles + 3
        retired := s.retired + 1 } := by
  have hexec := h.exec_eq_aloneInMem hr
  rw [hseq, Option.getD_none] at hexec
  refine ⟨_, _, hexec, h.step_aloneInMem h.drained hmem, ?_⟩
  rw [h.step_aloneInWb h.drained (wbStep_of_writer rfl hb)]
  simp [State.aloneInWb, assertZero_write_assertZero, h.memwb]

/-- The case of ADD, SUB and SET: the EX result `v` is the result. -/
theorem AloneInEx.writes_alu (h : AloneInEx s e) (hb : writesBack e.instr = true) (hl : isLoad e.instr = false) {v : Word}
    (hr : exResult s.cfg e.instr (captured e) = { alu := v }) :
    ∃ t u, exec e.instr s = .next t ∧ step t = .next u ∧
      step u = .next { s with
        idex := none
        regs := (s.regs.write e.instr.fields.rd v).assertZero
        cycles := s.cycles + 3
        retired := s.retired + 1 } := by
  have hs : isStore e.instr = false := by
    refine Bool.eq_false_iff.mpr fun hs => ?_
    cases (isStore_commits_nothing hs).1.symm.trans hb
  exact h.writes_result hb hr rfl (memStep_of_no_access (m := ⟨e.pc, e.instr, v, 0⟩) rfl hl hs)

end Alone

/-! ### The statements -/

/-- Settles O17: the EX result of ADD over the captured operands is their sum. -/
theorem addAlone : Obligations.AddAlone := by
  rintro f s ⟨pc, _, vd, va, vb⟩ h rfl
  have hsum : exResult s.cfg (.add f) ⟨vd, va, vb⟩ = { alu := va + vb } := rfl
  exact h.writes_alu rfl rfl hsum

/-- Settles O18: the EX result of SUB is the first captured source minus the second. -/
theorem subAlone : Obligations.SubAlone := by
  rintro f s ⟨pc, _, vd, va, vb⟩ h rfl
  have hdifference : exResult s.cfg (.sub f) ⟨vd, va, vb⟩ = { alu := va - vb } := rfl
  exact h.writes_alu rfl rfl hdifference

/-- Settles O19: the EX result of SET is the immediate, whatever was captured. -/
theorem setAlone : Obligations.SetAlone := by
  rintro f s ⟨pc, _, vd, va, vb⟩ h rfl
  have himmediate : exResult s.cfg (.set f) ⟨vd, va, vb⟩ = { alu := f.imm } := rfl
  exact h.writes_alu rfl rfl himmediate

end Sys2Proof.Machine

/-! PROOF. The statements about LOAD and STORE (45_load_store.md). Alone in EX, the address is the EX result, the access is the
MEM step of the second cycle, and the range fault is that cycle's; only LOAD has a result for the WB step of the third. -/

namespace Sys2Proof.Machine

/-! ### The stages of a memory access -/

section Stages

variable {s : State} {m : ExMem}

/-- A LOAD's MEM step where its read answers (R198). -/
theorem memStep_of_load {v : Word} (hm : s.exmem = some m) (hl : isLoad m.instr = true)
    (hv : memRead s.cfg.memWords s.mem m.alu = .next v) : memStep s = .next (s.mem, some ⟨m.pc, m.instr, v⟩) := by
  simp [memStep, hm, hl, hv]

/-- A STORE's MEM step where its write answers (R198). -/
theorem memStep_of_store {mem : Memory} (hm : s.exmem = some m) (hs : isStore m.instr = true)
    (hw : memWrite s.cfg.memWords s.mem m.alu m.sv = .next mem) :
    memStep s = .next (mem, some ⟨m.pc, m.instr, m.alu⟩) := by
  simp [memStep, hm, isStore_not_isLoad hs, hs, hw]

/-- The WB step of an instruction that commits nothing counts it (R195). -/
theorem wbStep_of_committing_nothing {w : MemWb} (hw : s.memwb = some w) (hb : writesBack w.instr = false)
    (ho : isOut w.instr = false) :
    wbStep s = .next { s with regs := s.regs.assertZero, retired := s.retired + 1 } := by
  simp [wbStep, commit, hw, hb, ho]

end Stages

/-! ### A memory access alone in EX -/

section AloneAccess

variable {s : State} {e : IdEx} {r : ExOut}

/-- An instruction alone in EX that commits nothing in WB leaves the memory its MEM step leaves and the index it continues at,
and nothing else changes but the counters. -/
theorem AloneInEx.commits_nothing (h : AloneInEx s e) (hb : writesBack e.instr = false) (ho : isOut e.instr = false)
    {v : Word} {mem : Memory} (hr : exResult s.cfg e.instr (captured e) = r)
    (hend : inBounds s.cfg (r.redirect.getD s.pc) = false)
    (hmem : memStep (s.aloneInMem (r.redirect.getD s.pc) ⟨e.pc, e.instr, r.alu, r.sv⟩) =
      .next (mem, some ⟨e.pc, e.instr, v⟩)) :
    ∃ t u, exec e.instr s = .next t ∧ step t = .next u ∧
      step u = .next { s with
        idex := none
        pc := r.redirect.getD s.pc
        regs := s.regs.assertZero
        mem := mem
        cycles := s.cycles + 3
        retired := s.retired + 1 } := by
  refine ⟨_, _, h.exec_eq_aloneInMem hr, h.step_aloneInMem hend hmem, ?_⟩
  rw [h.step_aloneInWb hend (wbStep_of_committing_nothing rfl hb ho)]
  simp [State.aloneInWb, assertZero_assertZero, h.memwb]

/-- A LOAD or STORE alone in EX whose address means no word: the second cycle is the range fault (R65). -/
theorem AloneInEx.faults_outside (h : AloneInEx s e) (hi : isLoad e.instr = true ∨ isStore e.instr = true)
    (hr : exResult s.cfg e.instr (captured e) = r) (hout : locate s.cfg.memWords r.alu = .outside) :
    ∃ t, exec e.instr s = .next t ∧ step t = .fault (.memRange r.alu) := by
  refine ⟨_, h.exec_eq_aloneInMem hr, ?_⟩
  have hroom := h.room
  have hrun : (s.aloneInMem (r.redirect.getD s.pc) ⟨e.pc, e.instr, r.alu, r.sv⟩).running = true :=
    running_iff.mpr ⟨h.paramsOk, not_done_of_exmem rfl, by simp only [State.aloneInMem]; omega⟩
  rw [step_of_running hrun]
  exact finishCycle_eq_fault.mpr ⟨⟨_, wbStep_of_empty h.memwb⟩, memStep_eq_fault.mpr ⟨_, rfl, hi, hout, rfl⟩⟩

end AloneAccess

/-! ### The statements -/

/-- Settles O20: the EX result of LOAD is its address, and its result is what the MEM step reads there. -/
theorem loadAlone : Obligations.LoadAlone := by
  rintro f s ⟨pc, _, vd, va, vb⟩ h rfl
  have haddress : exResult s.cfg (.load f) ⟨vd, va, vb⟩ = { alu := va + f.imm } := rfl
  refine ⟨fun v hv => ?_, h.faults_outside (.inl rfl) haddress⟩
  have hread : memRead s.cfg.memWords s.mem (va + f.imm) = .next v := by
    obtain ⟨hl, rfl⟩ | ⟨k, hl, rfl⟩ := hv
    · exact memRead_of_misaligned hl
    · exact memRead_of_word hl
  exact h.writes_result rfl haddress rfl (memStep_of_load (m := ⟨pc, .load f, va + f.imm, 0⟩) rfl rfl hread)

/-- Settles O21: the EX result of STORE is its address, from the `rd` field's register, and the value its MEM step writes
there. -/
theorem storeAlone : Obligations.StoreAlone := by
  rintro f s ⟨pc, _, vd, va, vb⟩ h rfl
  have haddress : exResult s.cfg (.store f) ⟨vd, va, vb⟩ = { alu := vd + f.imm, sv := va } := rfl
  refine ⟨fun mem hm => ?_, h.faults_outside (.inr rfl) haddress⟩
  have hwrite : memWrite s.cfg.memWords s.mem (vd + f.imm) va = .next mem := by
    obtain ⟨hl, rfl⟩ | ⟨k, hl, rfl⟩ := hm
    · exact memWrite_of_misaligned hl
    · exact memWrite_of_word hl
  exact h.commits_nothing rfl rfl haddress h.drained (memStep_of_store (m := ⟨pc, .store f, vd + f.imm, va⟩) rfl rfl hwrite)

end Sys2Proof.Machine

/-! PROOF. The statements about BEQ and JUMP (46_control_transfer.md). A transfer alone in EX is resolved in its first cycle;
its MEM and WB steps do nothing but count it, so the index it continues at is all it leaves behind. -/

namespace Sys2Proof.Machine

section AloneTransfer

variable {s : State} {e : IdEx} {f : Fields} {next : InstrIndex} {target : Option InstrIndex}

/-- A BEQ or JUMP alone in EX leaves the index it continues at, its target or the old one, where nothing is left to fetch
there, and nothing else changes but the counters. -/
theorem AloneInEx.continues_at (h : AloneInEx s e) (hi : e.instr = .beq f ∨ e.instr = .jump f)
    (hr : exResult s.cfg e.instr (captured e) = { alu := 0, redirect := target })
    (hnext : target.getD s.pc = next) (hend : inBounds s.cfg next = false) :
    ∃ t u, exec e.instr s = .next t ∧ step t = .next u ∧
      step u = .next { s with
        idex := none
        pc := next
        regs := s.regs.assertZero
        cycles := s.cycles + 3
        retired := s.retired + 1 } := by
  subst hnext
  obtain ⟨hb, ho, hl, hs⟩ : writesBack e.instr = false ∧ isOut e.instr = false ∧ isLoad e.instr = false ∧
      isStore e.instr = false := by
    obtain hi | hi := hi <;> rw [hi] <;> exact ⟨rfl, rfl, rfl, rfl⟩
  exact h.commits_nothing hb ho hr hend (memStep_of_no_access (m := ⟨e.pc, e.instr, 0, 0⟩) rfl hl hs)

end AloneTransfer

/-! ### The statements -/

/-- Settles O22: the target of BEQ is the label's index where the captured sources are equal, and there is none where they
differ. -/
theorem beqAlone : Obligations.BeqAlone := by
  rintro f s ⟨pc, _, vd, va, vb⟩ next h rfl hnext hend
  by_cases heq : va = vb
  · have htaken : exResult s.cfg (.beq f) ⟨vd, va, vb⟩ = { alu := 0, redirect := labelTarget s.cfg f.lab } := by
      simp [exResult, exBeq, equalValues, heq]
    rw [if_pos heq] at hnext
    exact h.continues_at (.inl rfl) htaken hnext.symm hend
  · have huntaken : exResult s.cfg (.beq f) ⟨vd, va, vb⟩ = { alu := 0, redirect := none } := by
      simp [exResult, exBeq, equalValues, heq]
    rw [if_neg heq] at hnext
    exact h.continues_at (.inl rfl) huntaken hnext.symm hend

/-- Settles O23: the target of JUMP is the label's index, whatever was captured. -/
theorem jumpAlone : Obligations.JumpAlone := by
  rintro f s ⟨pc, _, vd, va, vb⟩ next h rfl hnext hend
  have htarget : exResult s.cfg (.jump f) ⟨vd, va, vb⟩ = { alu := 0, redirect := labelTarget s.cfg f.lab } := rfl
  exact h.continues_at (.inr rfl) htarget hnext.symm hend

end Sys2Proof.Machine

/-! PROOF. The statements about OUT and NOP (47_output_nop.md). Neither accesses memory nor takes a transfer; alone in EX, an
OUT commits in the WB step of its third cycle, and a NOP is counted there and does nothing else. -/

namespace Sys2Proof.Machine

/-! ### The commit of an OUT -/

/-- The WB step of an OUT that names a port (R195, R291). -/
theorem wbStep_of_out_port {s : State} {w : MemWb} {k : Nat} (hw : s.memwb = some w) (ho : isOut w.instr = true)
    (hk : portIndex s.cfg.nPorts w.instr.fields.imm = some k) :
    wbStep s = .next { s with
      regs := s.regs.assertZero
      ports := s.ports.set k w.res
      outLog := s.outLog ++ [⟨s.cycles + 1, k, w.res⟩]
      retired := s.retired + 1 } := by
  simp [wbStep, commit, hw, isOut_not_writesBack ho, ho, writePort, hk]

/-! ### The statements -/

/-- Settles O24: the EX result of OUT is the first captured source, its MEM step passes that on, and the WB step commits it to
the port that the immediate names. -/
theorem outAlone : Obligations.OutAlone := by
  rintro f s ⟨pc, _, vd, va, vb⟩ k h rfl himm hk
  have hvalue : exResult s.cfg (.out f) ⟨vd, va, vb⟩ = { alu := va } := rfl
  have hmem : memStep (s.aloneInMem s.pc ⟨pc, .out f, va, 0⟩) = .next (s.mem, some ⟨pc, .out f, va⟩) :=
    memStep_of_no_access (m := ⟨pc, .out f, va, 0⟩) rfl rfl rfl
  have hwb := wbStep_of_out_port (s := s.aloneInWb s.pc s.mem ⟨pc, .out f, va⟩) rfl rfl
    (portIndex_eq_some.mpr ⟨himm, hk⟩)
  refine ⟨_, _, h.exec_eq_aloneInMem hvalue, h.step_aloneInMem h.drained hmem, (h.step_aloneInWb h.drained hwb).trans ?_⟩
  simp [State.aloneInWb, assertZero_assertZero, h.memwb]

/-- Settles O25: a NOP has no result to commit, and its MEM step leaves the memory as it is. -/
theorem nopAlone : Obligations.NopAlone := by
  rintro f s ⟨pc, _, vd, va, vb⟩ h rfl
  have hnothing : exResult s.cfg (.nop f) ⟨vd, va, vb⟩ = { alu := 0 } := rfl
  exact h.commits_nothing rfl rfl hnothing h.drained (memStep_of_no_access (m := ⟨pc, .nop f, 0, 0⟩) rfl rfl rfl)

end Sys2Proof.Machine

/-! PROOF. The statements about faults and refusals (60_exceptions.md): a step with accepted parameters answers next or is the
range fault of R65, and a refusal is always the check before the cycle (R319, R353). -/

namespace Sys2Proof.Machine

/-! ### A step with accepted parameters -/

section Accepted

variable {s : State}

/-- The word at `pc` of an accepted program is an instruction (R100). -/
theorem fetchOk_of_accepted (hl : loadProblem s.cfg = none) : s.fetchOk = true := by
  obtain ⟨-, -, -, -, himage⟩ := loadProblem_none hl
  unfold State.fetchOk
  cases hw : progWord s.cfg s.pc with
  | none => rfl
  | some w =>
    obtain ⟨i, hi, -⟩ := imageProblem_none himage w (List.mem_of_getElem? hw)
    simp [progInstr, hw, hi]

/-- The MEM step of an access that means no word is the range fault (R65). -/
theorem memStep_of_not_accessOk (h : s.accessOk = false) : ∃ a, memStep s = .fault (.memRange a) := by
  unfold State.accessOk at h
  split at h
  · cases h
  · rename_i m hm
    simp only [Bool.or_eq_false_iff, Bool.not_eq_false', Bool.or_eq_true, bne_eq_false_iff_eq] at h
    obtain ⟨haccess, houtside⟩ := h
    exact ⟨m.alu, memStep_eq_fault.mpr ⟨m, hm, haccess, houtside, rfl⟩⟩

/-- Under the invariant the access of the MEM step alone decides how a cycle ends: WB and IF always answer. -/
theorem cycle_completes_or_faults (hi : Inv s) (hr : s.running = true) :
    (∃ t, step s = .next t) ∨ ∃ a, step s = .fault (.memRange a) := by
  obtain ⟨hl, -⟩ := running_iff.mp hr
  cases ha : s.accessOk with
  | true =>
    have hok : s.cycleOk = true := by simp [State.cycleOk, ha, commitOk_of_inv hi hl, fetchOk_of_accepted hl]
    exact .inl (step_of_running hr ▸ finishCycle_completes hok _ _)
  | false =>
    obtain ⟨a, hfault⟩ := memStep_of_not_accessOk ha
    exact .inr ⟨a, (cycle_eq_fault hi hr).mpr hfault⟩

end Accepted

/-- Settles O53: a state that has ended holds, and a cycle completes or faults; what completes keeps the invariant. -/
theorem acceptedStepKeepsInvariantOrRangeFaults : Obligations.AcceptedStepKeepsInvariantOrRangeFaults := by
  intro s hi hl
  by_cases hended : (s.done || s.capped) = true
  · exact .inl ⟨s, step_of_ended hl hended, hi⟩
  · have hr := running_of_not_ended hl hended
    exact (cycle_completes_or_faults hi hr).imp_left fun ⟨t, h⟩ => ⟨t, h, cycle_keeps_inv hi hr h⟩

/-! ### A run within the contract -/

/-- Any number of steps from a state with the invariant and accepted parameters, by induction on it. -/
theorem run_keeps_inv_or_faults {s : State} (n : Nat) (hi : Inv s) (hl : loadProblem s.cfg = none) :
    (∃ t, Host.Core.run core n s = .next t ∧ Inv t) ∨ ∃ a, Host.Core.run core n s = .fault (.memRange a) := by
  induction n generalizing s with
  | zero => exact .inl ⟨s, rfl, hi⟩
  | succ n ih =>
    rw [run_succ]
    obtain ⟨t, h, hit⟩ | ⟨a, h⟩ := acceptedStepKeepsInvariantOrRangeFaults s hi hl
    · rw [h]
      exact ih hit (parametersNeverChange s t h ▸ hl)
    · exact .inr ⟨a, by rw [h]; rfl⟩

/-- Settles O46: the invariant holds at reset. -/
theorem wellFormedRunsStopOnlyByRangeFault : Obligations.WellFormedRunsStopOnlyByRangeFault := fun c n hl =>
  run_keeps_inv_or_faults n (resetWith_inv c) hl

/-! ### What the check before a cycle finds -/

/-- Under the invariant every refusal is that of the check before the cycle (R319; log 9). -/
theorem step_refuses_iff {s : State} (hi : Inv s) : (∃ r, step s = .refused r) ↔ loadProblem s.cfg ≠ none := by
  constructor
  · rintro ⟨r, hr⟩ hl
    obtain ⟨t, h, -⟩ | ⟨a, h⟩ := acceptedStepKeepsInvariantOrRangeFaults s hi hl <;> cases hr.symm.trans h
  · intro hl
    obtain ⟨r, hr⟩ := Option.ne_none_iff_exists'.mp hl
    exact ⟨r, step_of_loadProblem hr⟩

/-- An image is accepted exactly where each of its words is a well-formed instruction (R100, R109). -/
theorem imageProblem_eq_none_iff {n k : Nat} {l : List InstrWord} :
    imageProblem n k l = none ↔ ∀ w ∈ l, ∃ i, decode w = .ok i ∧ i.wellFormed n = true := by
  refine ⟨imageProblem_none, fun h => ?_⟩
  induction l generalizing k with
  | nil => rfl
  | cons w l ih =>
    obtain ⟨i, hi, hwf⟩ := h w List.mem_cons_self
    simp only [imageProblem, hi, hwf, if_true]
    exact ih fun v hv => h v (List.mem_cons_of_mem w hv)

/-- The check of the parameters, as the conditions that it tests (R319, R353, D3, D4). -/
theorem loadProblem_eq_none_iff {c : Config} : loadProblem c = none ↔
    1 ≤ c.memWords ∧ 1 ≤ c.nPorts ∧ 1 ≤ c.maxCycles ∧ c.prog.length < 2 ^ 32 ∧ imageProblem c.nPorts 0 c.prog = none := by
  refine ⟨loadProblem_none, fun ⟨hmem, hports, hcap, hlen, himage⟩ => ?_⟩
  have hsizes : c.sizesOk = true := decide_eq_true ⟨hmem, hports⟩
  have hcapOk : c.capOk = true := decide_eq_true hcap
  have hlengthOk : c.lengthOk = true := decide_eq_true hlen
  simpa [loadProblem, hsizes, hcapOk, hlengthOk] using himage

/-- A word is no well-formed instruction exactly where its opcode number is reserved, or it is an OUT whose port index lies
outside the array (R100, R109). -/
theorem not_wellFormed_word_iff {n : Nat} {w : InstrWord} :
    (¬ ∃ i, decode w = .ok i ∧ i.wellFormed n = true) ↔
      9 ≤ (w.extractLsb' 60 4).toNat ∨ ∃ f, decode w = .ok (.out f) ∧ ¬ (0 ≤ f.imm.toInt ∧ f.imm.toInt < n) := by
  cases hd : decode w with
  | error d =>
    have hreserved := (decode_eq_error_iff.mp hd).1
    simp [hreserved, -BitVec.extractLsb'_toNat]
  | ok i =>
    have hop : ¬ 9 ≤ (w.extractLsb' 60 4).toNat := fun hop => by
      cases hd.symm.trans (decode_eq_error_iff.mpr ⟨hop, rfl⟩)
    cases i <;> simp [hop, Instr.wellFormed, -BitVec.extractLsb'_toNat]

/-- Settles O5: a step refuses where the check finds a problem, and what it tests fails in one of the five ways. -/
theorem exactlyIllFormedRunsAreRefused : Obligations.ExactlyIllFormedRunsAreRefused := by
  intro s hi
  have hword : imageProblem s.cfg.nPorts 0 s.cfg.prog ≠ none ↔ ∃ (k : Nat) (w : InstrWord), s.cfg.prog[k]? = some w ∧
      (9 ≤ (w.extractLsb' 60 4).toNat ∨
        ∃ f, decode w = .ok (.out f) ∧ ¬ (0 ≤ f.imm.toInt ∧ f.imm.toInt < s.cfg.nPorts)) := by
    simp only [ne_eq, imageProblem_eq_none_iff, not_forall, not_wellFormed_word_iff, List.mem_iff_getElem?, exists_prop]
    rw [exists_comm]
    simp only [exists_and_right]
  rw [step_refuses_iff hi, ← hword, ne_eq, loadProblem_eq_none_iff]
  simp only [not_and_or, not_le, not_lt, Nat.lt_one_iff, ne_eq]
  tauto

end Sys2Proof.Machine

/-! PROOF. The statements about reset and the length of a run (70_reset_and_hazards.md): the first instruction's way through
the latches, and the cycle count of a completed run as a sum of one account per cycle (R352, R370). -/

namespace Sys2Proof.Machine

/-! ### What a cycle hands on from latch to latch -/

section HandOn

variable {s t : State}

/-- With nothing in the WB step the registers are as before, with the zero register re-asserted (R195). -/
theorem cycle_regs_of_memwb_none (hr : s.running = true) (h : step s = .next t) (hw : s.memwb = none) :
    t.regs = s.regs.assertZero := by
  obtain ⟨u, hu, -, -, -, -, -, -, hregs, -⟩ := cycle_stages hr h
  cases hu.symm.trans (wbStep_of_empty hw)
  exact hregs

/-- The EX step hands its instruction on, with its index (R201). -/
theorem cycle_exmem_of_idex {e : IdEx} (hr : s.running = true) (h : step s = .next t) (he : s.idex = some e) :
    ∃ m, t.exmem = some m ∧ m.pc = e.pc ∧ m.instr = e.instr :=
  ⟨_, by rw [cycle_exmem hr h, nextExMem, he], rfl, rfl⟩

theorem cycle_exmem_isSome (hr : s.running = true) (h : step s = .next t) : t.exmem.isSome = s.idex.isSome := by
  cases he : s.idex <;> simp [cycle_exmem hr h, nextExMem, he]

theorem cycle_memwb_of_exmem_none (hr : s.running = true) (h : step s = .next t) (hm : s.exmem = none) : t.memwb = none :=
  (Prod.mk.inj (memStep_of_none hm (cycle_memStep hr h))).2

theorem cycle_memwb_isSome (hr : s.running = true) (h : step s = .next t) : t.memwb.isSome = s.exmem.isSome := by
  cases hm : s.exmem with
  | none => simp [cycle_memwb_of_exmem_none hr h hm]
  | some m =>
    obtain ⟨w, hw, -⟩ := cycle_memwb_of_exmem hr h hm
    simp [hw]

/-- The MEM step hands its instruction on, with its index (R198). -/
theorem cycle_memwb_index {m : ExMem} (hr : s.running = true) (h : step s = .next t) (hm : s.exmem = some m) :
    ∃ w, t.memwb = some w ∧ w.pc = m.pc ∧ w.instr = m.instr := by
  obtain ⟨w, hw, -⟩ := cycle_memwb_of_exmem hr h hm
  obtain ⟨x, hx, hpc, hinstr⟩ := memStep_occupant (hw ▸ cycle_memStep hr h)
  cases hm.symm.trans hx
  exact ⟨w, hw, hpc, hinstr⟩

end HandOn

/-! ### The first instruction after reset -/

section First

variable {c : Config} {k : Nat} {s t : State}

/-- After `k` cycles of a run with the parameters `c`, nothing has retired and every register is still 0. -/
structure NoneRetired (c : Config) (k : Nat) (s : State) : Prop where
  cfg : s.cfg = c
  cycles : s.cycles = k
  retired : s.retired = 0
  regs : ∀ i, s.reg i = 0

theorem resetWith_noneRetired (c : Config) : NoneRetired c 0 (State.resetWith c) where
  cfg := rfl
  cycles := rfl
  retired := rfl
  regs := resetWith_reg c

theorem NoneRetired.running (hs : NoneRetired c k s) (hk : k < c.maxCycles) (hd : s.done = false)
    (h : step s = .next t) : s.running = true := by
  obtain ⟨hl, -⟩ := step_next h
  exact running_iff.mpr ⟨hl, hd, by rwa [hs.cfg, hs.cycles]⟩

/-- A cycle with nothing in the WB step retires nothing and writes no register. -/
theorem NoneRetired.next (hs : NoneRetired c k s) (hr : s.running = true) (h : step s = .next t) (hw : s.memwb = none) :
    NoneRetired c (k + 1) t where
  cfg := (cycle_cfg hr h).trans hs.cfg
  cycles := by rw [cycle_cycles hr h, hs.cycles]
  retired := by simp [cycle_retired hr h, hw, hs.retired]
  regs i := by
    rw [State.reg, cycle_regs_of_memwb_none hr h hw, read_assertZero]
    split
    · rfl
    · exact hs.regs i

/-- With every register 0 the decode of an instruction captures zeros (R32). -/
theorem NoneRetired.capture_eq (hs : NoneRetired c k s) (pc : InstrIndex) (i : Instr) :
    capture s.regs pc i = ⟨pc, i, 0, 0, 0⟩ := by
  have hread : ∀ j, s.regs.read j = 0 := hs.regs
  simp [capture, hread]

theorem inBounds_of_progInstr {a : InstrIndex} {i : Instr} (h : progInstr c a = some i) : inBounds c a = true := by
  cases hb : inBounds c a with
  | true => rfl
  | false =>
    have hnext := (fetch_of_progInstr h).symm.trans (fetch_past_end hb)
    cases hnext

end First

/-- Settles O47: each cycle moves the instruction on by one latch, with bubbles ahead of it, so that the cap is the only other
thing that could end the run. -/
theorem firstInstructionRetiresInCycleFive : Obligations.FirstInstructionRetiresInCycleFive := by
  intro c i s1 s2 s3 s4 s5 hi hcap h1 h2 h3 h4 h5
  have hn0 := resetWith_noneRetired c
  have hr0 := hn0.running (by omega) (by simpa [State.done] using inBounds_of_progInstr hi) h1
  obtain ⟨hifid1, hpc1⟩ :=
    Prod.mk.inj (Host.Outcome.next.inj ((cycle_fetches_of_bubble hr0 h1 rfl).symm.trans (fetch_of_progInstr hi)))
  obtain ⟨hexmem1, hidex1⟩ := cycle_of_bubble hr0 h1 rfl
  have hmemwb1 := cycle_memwb_of_exmem_none hr0 h1 rfl
  have hn1 := hn0.next hr0 h1 rfl
  have hr1 := hn1.running (by omega) (by simp [State.done, hifid1]) h2
  obtain ⟨hexmem2, hidex2⟩ := cycle_of_bubble hr1 h2 hidex1
  have hmemwb2 := cycle_memwb_of_exmem_none hr1 h2 hexmem1
  have hn2 := hn1.next hr1 h2 hmemwb1
  rw [hifid1, Option.map_some, hn2.capture_eq] at hidex2
  have hr2 := hn2.running (by omega) (by simp [State.done, hidex2]) h3
  obtain ⟨m, hm, hmpc, hminstr⟩ := cycle_exmem_of_idex hr2 h3 hidex2
  have hmemwb3 := cycle_memwb_of_exmem_none hr2 h3 hexmem2
  have hn3 := hn2.next hr2 h3 hmemwb2
  have hr3 := hn3.running (by omega) (not_done_of_exmem hm) h4
  obtain ⟨w, hw, hwpc, hwinstr⟩ := cycle_memwb_index hr3 h4 hm
  have hn4 := hn3.next hr3 h4 hmemwb3
  have hr4 := hn4.running (by omega) (not_done_of_memwb hw) h5
  refine ⟨hifid1, hpc1, hidex2, ⟨m, hm, hmpc, hminstr⟩, ⟨w, hw, hwpc.trans hmpc, hwinstr.trans hminstr⟩, hn4.retired, ?_, ?_⟩
  · simp [cycle_retired hr4 h5, hn4.retired, hw]
  · rw [cycle_cycles hr4 h5, hn4.cycles]

/-! ### The slots lost to the end of the program -/

/-- How many of the slots behind the youngest instruction are lost to the end of the program: none while there is something to
fetch or to decode, then one more for each latch that the youngest instruction has passed since its fetch (R213). -/
def State.slotsPastEnd (s : State) : Nat :=
  if inBounds s.cfg s.pc || s.ifid.isSome then 0
  else if s.idex.isSome then 1
  else if s.exmem.isSome then 2
  else if s.memwb.isSome then 3
  else 4

/-- An empty IF/ID behind an instruction in EX is the end of the program: nothing else keeps the fetch from its turn. -/
def DecodeFedToEnd (s : State) : Prop := s.idex.isSome = true → s.ifid = none → inBounds s.cfg s.pc = false

section Slots

variable {s t : State}

/-- All that a fetch past the end can answer (R213). -/
theorem fetched_past_end {c : Config} {pc : InstrIndex} {f : Option IfId × InstrIndex} (hb : inBounds c pc = false)
    (h : fetch c pc = .next f) : f = (none, pc) :=
  Host.Outcome.next.inj (h.symm.trans (fetch_past_end hb))

theorem cycle_decodeFedToEnd (hr : s.running = true) (h : step s = .next t) : DecodeFedToEnd t := by
  intro he hd
  obtain ⟨a, -, -, hidex, -⟩ | ⟨-, -, -, hidex, -⟩ | ⟨-, -, hf, -⟩ := cycle_front hr h
  · simp [hidex] at he
  · simp [hidex] at he
  · rw [cycle_cfg hr h]
    have hend : inBounds s.cfg s.pc = false := by simpa [hd] using fetch_isNone hf
    have hpc : t.pc = s.pc := (Prod.mk.inj (fetched_past_end hend hf)).2
    rwa [hpc]

/-- What a taken transfer costs beyond the end of the program: two slots where its target is an instruction, and none where the
target is past the end, its two slots being those of the end (R179, R370). -/
def transferPenalty (s t : State) : Nat := if (takenTarget s).isSome && inBounds t.cfg t.pc then 2 else 0

/-- A lost slot is a stall's, a taken transfer's, or one more of those at the end of the program. -/
theorem cycle_slotsPastEnd (hs : DecodeFedToEnd s) (hr : s.running = true) (h : step s = .next t) :
    s.slotsPastEnd + s.lostSlots = t.slotsPastEnd + (if hazard s then 1 else 0) + transferPenalty s t := by
  have hexmem := cycle_exmem_isSome hr h
  have hmemwb := cycle_memwb_isSome hr h
  obtain ⟨a, ht, hifid, hidex, -⟩ | ⟨ht, hh, hifid, hidex, hpc⟩ | ⟨ht, hh, hf, hidex⟩ := cycle_front hr h
  · have hh : hazard s = false := by
      by_contra hh
      cases (takenTarget_of_hazard (eq_true_of_ne_false hh)).symm.trans ht
    have he : s.idex.isSome = true := by
      by_contra he
      cases (takenTarget_of_idex_none (by simpa using he)).symm.trans ht
    have hbefore : s.slotsPastEnd + s.lostSlots = 2 := by
      cases hd : s.ifid with
      | none => simp [State.slotsPastEnd, State.lostSlots, ht, hd, he, hs he hd]
      | some d => simp [State.slotsPastEnd, State.lostSlots, ht, hd]
    rw [hbefore, transferPenalty, ht, State.slotsPastEnd, hifid, hidex, hexmem, he, hh]
    cases inBounds t.cfg t.pc <;> rfl
  · obtain ⟨e, d, f, -, hd, -⟩ := hazard_iff.mp hh
    simp [State.slotsPastEnd, State.lostSlots, transferPenalty, ht, hh, hifid, hd]
  · have hin := fetch_isNone hf
    cases hb : inBounds s.cfg s.pc with
    | true =>
      have hd : t.ifid.isSome = true := by simpa [hb] using hin
      simp [State.slotsPastEnd, State.lostSlots, transferPenalty, ht, hh, hb, hd]
    | false =>
      obtain ⟨hifid, hpc⟩ := Prod.mk.inj (fetched_past_end hb hf)
      have hafter : t.slotsPastEnd = s.slotsPastEnd + 1 := by
        have hnd : s.done = false := (running_iff.mp hr).2.1
        simp only [State.slotsPastEnd, cycle_cfg hr h, hpc, hb, hifid, hidex, hexmem, hmemwb, Option.isSome_map]
        by_cases hd : s.ifid.isSome = true
        · simp [hd]
        by_cases he : s.idex.isSome = true
        · simp [hd, he]
        by_cases hm : s.exmem.isSome = true
        · simp [hd, he, hm]
        have hw : s.memwb.isSome = true := by
          by_contra hw
          simp_all [State.done]
        simp [hd, he, hm, hw]
      simp [hafter, State.lostSlots, transferPenalty, ht, hh, hb]

end Slots

/-! ### What follows a taken transfer in the EX step -/

section Following

variable {s t f : State} {n : Nat}

/-- The trace of a state that is done is empty (R216, R218). -/
theorem cycleTrace_of_done (hd : s.done = true) (n : Nat) : cycleTrace n s = [] := by
  cases n <;> simp [cycleTrace, State.termination, hd]

/-- Past the end of the program, with nothing before the EX step, no instruction executes any more. -/
theorem not_executes_of_drained (h : Host.Core.run core n s = .next f) (hf : f.done = true) (hifid : s.ifid = none)
    (hidex : s.idex = none) (hb : inBounds s.cfg s.pc = false) : (cycleTrace n s).any (·.execute.isSome) = false := by
  induction n generalizing s with
  | zero => rfl
  | succ n ih =>
    cases hd : s.done with
    | true => rw [cycleTrace_of_done hd, List.any_nil]
    | false =>
      obtain ⟨t, hr, ht, hrest, htrace⟩ := run_succ_of_not_done h hf hd
      obtain ⟨hifid', hpc⟩ := Prod.mk.inj (fetched_past_end hb (cycle_fetches_of_bubble hr ht hidex))
      obtain ⟨-, hidex'⟩ := cycle_of_bubble hr ht hidex
      rw [hifid, Option.map_none] at hidex'
      have hlater := ih hrest hifid' hidex' (by rwa [cycle_cfg hr ht, hpc])
      simp [htrace, hlater, cycleRecord, hidex]

/-- In a completed run an instruction at `pc`, with nothing before the EX step, executes two cycles later. -/
theorem executes_of_inBounds (h : Host.Core.run core n s = .next f) (hf : f.done = true) (hifid : s.ifid = none)
    (hidex : s.idex = none) (hb : inBounds s.cfg s.pc = true) : (cycleTrace n s).any (·.execute.isSome) = true := by
  have hd : s.done = false := by simp [State.done, hb]
  obtain ⟨k, t, hr, ht, hrun, htrace⟩ := run_of_not_done h hf hd
  have hfetched : t.ifid.isSome = true := by
    simpa [hb] using fetch_isNone (cycle_fetches_of_bubble hr ht hidex)
  obtain ⟨d, hifid'⟩ := Option.isSome_iff_exists.mp hfetched
  obtain ⟨-, hidex'⟩ := cycle_of_bubble hr ht hidex
  rw [hifid, Option.map_none] at hidex'
  obtain ⟨k', u, hr', hu, hrun', htrace'⟩ := run_of_not_done hrun hf (by simp [State.done, hifid'])
  obtain ⟨-, hdecoded⟩ := cycle_of_bubble hr' hu hidex'
  rw [hifid', Option.map_some] at hdecoded
  obtain ⟨k'', v, -, -, -, htrace''⟩ := run_of_not_done hrun' hf (by simp [State.done, hdecoded])
  simp [htrace, htrace', htrace'', cycleRecord, hdecoded]

/-- In a completed run an instruction follows a taken transfer in the EX step exactly where the target is one. -/
theorem executes_after_taken {a : InstrIndex} (hr : s.running = true) (h : step s = .next t) (ht : takenTarget s = some a)
    (hrun : Host.Core.run core n t = .next f) (hf : f.done = true) :
    (cycleTrace n t).any (·.execute.isSome) = inBounds t.cfg t.pc := by
  obtain ⟨-, hifid, hidex⟩ := cycle_of_taken hr h ht
  cases hb : inBounds t.cfg t.pc with
  | true => exact executes_of_inBounds hrun hf hifid hidex hb
  | false => exact not_executes_of_drained hrun hf hifid hidex hb

/-- The trace counts two slots for a taken transfer as `transferPenalty` does (R370). -/
theorem takenBeforeLast_cons (hr : s.running = true) (h : step s = .next t) (hrun : Host.Core.run core n t = .next f)
    (hf : f.done = true) : 2 * takenBeforeLast (cycleRecord s :: cycleTrace n t) =
      transferPenalty s t + 2 * takenBeforeLast (cycleTrace n t) := by
  cases ht : takenTarget s with
  | none => simp [takenBeforeLast, cycleRecord, transferPenalty, ht]
  | some a =>
    simp only [takenBeforeLast, cycleRecord, transferPenalty, ht, executes_after_taken hr h ht hrun hf, Option.isSome_some,
      Bool.true_and]
    split <;> omega

theorem stallCount_cons (s : State) (l : List CycleRecord) :
    stallCount (cycleRecord s :: l) = (if hazard s then 1 else 0) + stallCount l := by
  simp [stallCount, List.countP_cons, cycleRecord, stallSignal_eq_hazard, Nat.add_comm]

end Following

/-! ### The account of a run -/

/-- The slots a run has been given: one a cycle, and the two latches before the EX step where they are empty. -/
def State.slotsGiven (s : State) : Nat := s.cycles + s.emptySlots

/-- What has become of the slots behind the EX step: an instruction each, retired or not, or the end of the program. -/
def State.slotsUsed (s : State) : Nat := s.retired + s.executedInFlight + s.slotsPastEnd

/-- The account of one cycle, with the slots at the end of the program on the side of those used (R370). -/
theorem cycle_account {s t : State} (hs : DecodeFedToEnd s) (hr : s.running = true) (h : step s = .next t) :
    t.slotsGiven + s.slotsUsed =
      s.slotsGiven + t.slotsUsed + (if hazard s then 1 else 0) + transferPenalty s t := by
  have hslots := everyCycleIsAccountedFor s t hr h
  have hend := cycle_slotsPastEnd hs hr h
  unfold State.slotsGiven State.slotsUsed
  omega

/-- The account of a completed run, by induction on its length. -/
theorem run_account {n : Nat} {s f : State} (hs : DecodeFedToEnd s) (h : Host.Core.run core n s = .next f)
    (hf : f.done = true) : f.slotsGiven + s.slotsUsed =
      s.slotsGiven + f.slotsUsed + stallCount (cycleTrace n s) + 2 * takenBeforeLast (cycleTrace n s) := by
  induction n generalizing s with
  | zero =>
    cases h
    simp [cycleTrace, stallCount, takenBeforeLast]
  | succ n ih =>
    cases hd : s.done with
    | true =>
      cases run_of_holding (not_running_of_done hd) h
      simp [cycleTrace_of_done hd, stallCount, takenBeforeLast]
    | false =>
      obtain ⟨t, hr, ht, hrest, htrace⟩ := run_succ_of_not_done h hf hd
      have hcycle := cycle_account hs hr ht
      have hrun := ih (cycle_decodeFedToEnd hr ht) hrest
      rw [htrace, stallCount_cons, takenBeforeLast_cons hr ht hrest hf]
      omega

/-- Settles O50: at reset the two empty latches are given and none is used; in a done state two are empty, and four slots
are used up by the end of the program. -/
theorem cycleCountOfACompletedRun : Obligations.CycleCountOfACompletedRun := by
  intro c n s hprog hrun hd
  have hstart : DecodeFedToEnd (State.resetWith c) := nofun
  have haccount := run_account hstart hrun hd
  have hb : inBounds c 0 = true := decide_eq_true (List.length_pos_of_ne_nil hprog)
  have hgiven : (State.resetWith c).slotsGiven = 2 := rfl
  have hused : (State.resetWith c).slotsUsed = 0 := by
    simpa [State.slotsUsed, State.executedInFlight, State.slotsPastEnd] using hb
  simp only [State.done, Bool.and_eq_true, Bool.not_eq_true', Option.isNone_iff_eq_none] at hd
  obtain ⟨⟨⟨⟨hpc, hifid⟩, hidex⟩, hexmem⟩, hmemwb⟩ := hd
  have hgiven' : s.slotsGiven = s.cycles + 2 := by simp [State.slotsGiven, State.emptySlots, hifid, hidex]
  have hused' : s.slotsUsed = s.retired + 4 := by
    simp [State.slotsUsed, State.executedInFlight, State.slotsPastEnd, hpc, hifid, hidex, hexmem, hmemwb]
  omega

end Sys2Proof.Machine

/-! PROOF. The sample words of the encoding (95_test_vectors.md section 2.1). -/

namespace Sys2Proof

/-- Settles O4: the decoder evaluated on nine words, one for each opcode number. -/
theorem sampleWordsDecode : Obligations.SampleWordsDecode := by
  unfold Obligations.SampleWordsDecode
  decide

end Sys2Proof
